-- ==== Sys2Proof/Word.lean ====
section
/-! DEFINITION. The word types of the engine: 00_scope.md R6, R11 (32-bit unsigned words, 8-bit bytes) and the record of five
words that the chaining registers, the working registers and the IV ROM share (10_state.md R20, R23, R45). -/

namespace Sys2Proof

/-- WORD_BITS = 32 (00_scope.md R6): every register and word value is an unsigned 32-bit integer (R11).
`+` on `Word` is the `+32` of R12 and R182, `&&&`, `|||`, `^^^`, `~~~` are its AND, OR, XOR, NOT32. -/
abbrev Word := BitVec 32

/-- A byte of the message buffer (10_state.md R32). -/
abbrev Byte := BitVec 8

/-- STATE_WORDS = 5 words in the document's order A, B, C, D, E (10_state.md R23): H[0] is `a`, ..., H[4] is `e`. -/
structure Five where
  a : Word
  b : Word
  c : Word
  d : Word
  e : Word
deriving DecidableEq, Repr, Inhabited

end Sys2Proof
end

