-- ==== Sys2Proof/Config.lean ====
section
/-! DEFINITION. What an implementation fixes and the spec leaves without a value (00_scope.md R7), the free values
(00_scope.md R17, R19 "unspecified value"), and the three named configurations that only test vectors use (R9). -/

namespace Sys2Proof

/-- The configuration record CFG of 00_scope.md R7. Its type carries the well-formedness of R8: a shift amount is below 32, a
word has 32 bits, the capacity is at most 2^61 − 1. -/
structure Cfg where
  /-- the IV ROM, 10_state.md R45 -/
  iv : Five
  /-- the SHIFTS ROM, 5 rows of 16 entries in [0, 31], 10_state.md R43 -/
  shifts : Vector (Vector (Fin 32) 16) 5
  /-- the K ROM, 5 rows of 5 words, 10_state.md R44 -/
  k : Vector (Vector Word 5) 5
  /-- MSG_BYTES, the capacity of the message buffer, 10_state.md R32 -/
  msgBytes : Fin (2 ^ 61)
deriving DecidableEq, Repr, Inhabited

/-- The configuration of the machine at hand. It has no body here: the spec gives no number for any of its fields
(91_not_in_source.md N1, N2, N3, N11), so nothing can be proved about them. Assumption log 1. -/
opaque Config.cfg : Cfg

/-- The unspecified 32-bit value a host read returns at draw `n` (46_host_commands.md R258). Assumption log 4. -/
opaque Config.freeWord (n : Nat) : Word

/-- The unspecified byte that MSG address `addr`, never written since reset, gives at draw `n` (46_host_commands.md R259,
70_reset_and_hazards.md R313). Assumption log 3. -/
opaque Config.freeByte (n addr : Nat) : Byte

/-- REFCFG of 95_test_vectors.md section 1: from general knowledge, no claim about the hardware (00_scope.md R9).
Assumption log 14. -/
def refCfg : Cfg where
  iv := ⟨0x67452301, 0xEFCDAB89, 0x98BADCFE, 0x10325476, 0xC3D2E1F0⟩
  shifts := #v[
    #v[11, 14, 15, 12, 5, 8, 7, 9, 11, 13, 14, 15, 6, 7, 9, 8],
    #v[7, 6, 8, 13, 11, 9, 7, 15, 7, 12, 15, 9, 11, 7, 13, 12],
    #v[11, 13, 6, 7, 14, 9, 13, 15, 14, 8, 13, 6, 5, 12, 7, 5],
    #v[11, 12, 14, 15, 14, 15, 9, 8, 9, 14, 5, 6, 8, 6, 5, 12],
    #v[9, 15, 5, 11, 6, 8, 13, 12, 5, 12, 13, 14, 11, 8, 5, 6]]
  k := #v[
    #v[0x00000000, 0x00000000, 0x00000000, 0x00000000, 0x00000000],
    #v[0x5A827999, 0x5A827999, 0x5A827999, 0x5A827999, 0x5A827999],
    #v[0x6ED9EBA1, 0x6ED9EBA1, 0x6ED9EBA1, 0x6ED9EBA1, 0x6ED9EBA1],
    #v[0x8F1BBCDC, 0x8F1BBCDC, 0x8F1BBCDC, 0x8F1BBCDC, 0x8F1BBCDC],
    #v[0xA953FD4E, 0xA953FD4E, 0xA953FD4E, 0xA953FD4E, 0xA953FD4E]]
  msgBytes := 256

/-- ZEROCFG of 95_test_vectors.md section 1: zero everywhere (00_scope.md R9). -/
def zeroCfg : Cfg where
  iv := ⟨0, 0, 0, 0, 0⟩
  shifts := Vector.replicate 5 (Vector.replicate 16 0)
  k := Vector.replicate 5 (Vector.replicate 5 0)
  msgBytes := 256

/-- TESTCFG of 95_test_vectors.md section 1: synthetic, all 25 K cells distinct (00_scope.md R9). -/
def testCfg : Cfg where
  iv := ⟨0x11111111, 0x22222222, 0x33333333, 0x44444444, 0x55555555⟩
  shifts := #v[
    #v[0, 1, 2, 3, 4, 5, 6, 7, 0, 1, 2, 3, 4, 5, 6, 7],
    #v[3, 4, 5, 6, 7, 0, 1, 2, 3, 4, 5, 6, 7, 0, 1, 2],
    #v[6, 7, 0, 1, 2, 3, 4, 5, 6, 7, 0, 1, 2, 3, 4, 5],
    #v[1, 2, 3, 4, 5, 6, 7, 0, 1, 2, 3, 4, 5, 6, 7, 0],
    #v[4, 5, 6, 7, 0, 1, 2, 3, 4, 5, 6, 7, 0, 1, 2, 3]]
  k := #v[
    #v[0x10010001, 0x10020002, 0x10030003, 0x10040004, 0x10050005],
    #v[0x20010001, 0x20020002, 0x20030003, 0x20040004, 0x20050005],
    #v[0x30010001, 0x30020002, 0x30030003, 0x30040004, 0x30050005],
    #v[0x40010001, 0x40020002, 0x40030003, 0x40040004, 0x40050005],
    #v[0x50010001, 0x50020002, 0x50030003, 0x50040004, 0x50050005]]
  msgBytes := 256

end Sys2Proof
end

