-- ==== Sys2Proof/Syntax.lean ====
section
/-! DEFINITION. The instruction set: the three host commands of 30_encoding.md R91 and the ten micro-operations of R94, one
constructor per row of spec/opcode_table.json. -/

namespace Sys2Proof

/-- One row of the opcode table each. The operand of a STEP micro-operation is the step index i, the field cw[6:0] of its
control word (30_encoding.md R92, R94); no other row has an operand (R98). -/
inductive Instr where
  /-- NOP, 46_host_commands.md R251 -/
  | nop
  /-- START, 46_host_commands.md R252 -/
  | start
  /-- CLRERR, 46_host_commands.md R253 -/
  | clrerr
  /-- WAIT, 45_sequencer.md R231 -/
  | wait
  /-- LDBLK, 41_block_words.md R141 -/
  | ldblk
  /-- PERM, 41_block_words.md R143 -/
  | perm
  /-- SEED, 41_block_words.md R145 -/
  | seed
  /-- STEP.F1 at step index i, 43_step.md R186 -/
  | stepF1 (i : BitVec 7)
  /-- STEP.F2 at step index i, 43_step.md R187 -/
  | stepF2 (i : BitVec 7)
  /-- STEP.F3 at step index i, 43_step.md R188 -/
  | stepF3 (i : BitVec 7)
  /-- STEP.F4 at step index i, 43_step.md R189 -/
  | stepF4 (i : BitVec 7)
  /-- STEP.F5 at step index i, 43_step.md R190 -/
  | stepF5 (i : BitVec 7)
  /-- ACCUM, 44_chaining_output.md R210 -/
  | accum
deriving DecidableEq, Repr

/-- The agent that issues the instruction, the `agent` member of its row in spec/opcode_table.json: the host for format C
(30_encoding.md R91), the engine for format U (R94). -/
def Instr.byHost : Instr → Bool
  | .nop | .start | .clrerr => true
  | .wait | .ldblk | .perm | .seed | .stepF1 _ | .stepF2 _ | .stepF3 _ | .stepF4 _ | .stepF5 _ | .accum => false

end Sys2Proof
end

