-- ==== Sys2Proof/WellFormed.lean ====
section
/-! DEFINITION. Which instruction terms are instructions: the step ranges of 30_encoding.md R94. -/

namespace Sys2Proof

/-- The step ranges of the five STEP rows (30_encoding.md R94, 42_round_functions.md R166); every other term is well formed. -/
def Instr.wellFormed : Instr → Bool
  | .stepF1 i => decide (i.toNat ≤ 16)
  | .stepF2 i => decide (17 ≤ i.toNat ∧ i.toNat ≤ 32)
  | .stepF3 i => decide (33 ≤ i.toNat ∧ i.toNat ≤ 47)
  | .stepF4 i => decide (48 ≤ i.toNat ∧ i.toNat ≤ 63)
  | .stepF5 i => decide (64 ≤ i.toNat ∧ i.toNat ≤ 79)
  | .nop | .start | .clrerr | .wait | .ldblk | .perm | .seed | .accum => true

end Sys2Proof
end

