-- ==== Sys2Proof/Decode.lean ====
section
/-! DEFINITION. Decoding of format C (the value written to CMD, 30_encoding.md R91) and format U (the control word
(PHASE, STEP), R92 to R94), total, with the reserved encodings rejected by name (R99, R100); then the encoder, written from the
same tables; then the opcode table's own rows of mask and match for format U. -/

namespace Sys2Proof

/-- Why a word is no instruction. -/
inductive Reserved where
  /-- a CMD value of 3 or with a bit of 31:2 set, 30_encoding.md R99 -/
  | command
  /-- PHASE = 6 or 7, 30_encoding.md R100 -/
  | phase
  /-- PHASE = 4 with STEP ≥ 80, 30_encoding.md R100 -/
  | step
  /-- a number wider than the format, so no word of it (30_encoding.md R90: one fixed length per format) -/
  | width
deriving DecidableEq, Repr

/-- What a decoder answers. -/
inductive Decoded where
  | instr (i : Instr)
  | reserved (r : Reserved)
deriving DecidableEq, Repr

/-- The two formats that encode instructions (30_encoding.md R90): a 32-bit command and a 10-bit control word. -/
inductive Encoded where
  /-- format C, the value written to CMD -/
  | command (w : BitVec 32)
  /-- format U, cw = PHASE · 128 + STEP -/
  | control (cw : BitVec 10)
deriving DecidableEq, Repr

/-- Field `code`, CMD[1:0] (30_encoding.md R91, 10_state.md R38). -/
def cmdCode (w : BitVec 32) : BitVec 2 := w.extractLsb' 0 2

/-- Field `zero`, CMD[31:2], reserved (30_encoding.md R91, 10_state.md R38). -/
def cmdReserved (w : BitVec 32) : BitVec 30 := w.extractLsb' 2 30

/-- Format C: 0 NOP, 1 START, 2 CLRERR; 3 and any value with a bit of 31:2 set are reserved (30_encoding.md R91, R99). -/
def decodeCommand (w : BitVec 32) : Decoded :=
  if cmdReserved w ≠ 0#30 then .reserved .command
  else if cmdCode w = 0#2 then .instr .nop
  else if cmdCode w = 1#2 then .instr .start
  else if cmdCode w = 2#2 then .instr .clrerr
  else .reserved .command

/-- cw[9:7] = PHASE (30_encoding.md R92). -/
def cwPhase (cw : BitVec 10) : BitVec 3 := cw.extractLsb' 7 3

/-- cw[6:0] = STEP (30_encoding.md R92). -/
def cwStep (cw : BitVec 10) : BitVec 7 := cw.extractLsb' 0 7

/-- cw = PHASE · 128 + STEP (30_encoding.md R92). -/
def controlWordOf (phase : BitVec 3) (stepIdx : BitVec 7) : BitVec 10 := phase ++ stepIdx

/-- The STEP rows of 30_encoding.md R94: the row whose range contains the index; an index of 80 or more selects none (R100). -/
def decodeRound (i : BitVec 7) : Decoded :=
  if i.toNat ≤ 16 then .instr (.stepF1 i)
  else if i.toNat ≤ 32 then .instr (.stepF2 i)
  else if i.toNat ≤ 47 then .instr (.stepF3 i)
  else if i.toNat ≤ 63 then .instr (.stepF4 i)
  else if i.toNat ≤ 79 then .instr (.stepF5 i)
  else .reserved .step

/-- Format U: the micro-operation that (PHASE, STEP) selects (30_encoding.md R93, R94); STEP is ignored unless PHASE = 4 (R92);
PHASE 6 and 7 select none (R100). -/
def decodeControl (cw : BitVec 10) : Decoded :=
  if cwPhase cw = 0#3 then .instr .wait
  else if cwPhase cw = 1#3 then .instr .ldblk
  else if cwPhase cw = 2#3 then .instr .perm
  else if cwPhase cw = 3#3 then .instr .seed
  else if cwPhase cw = 4#3 then decodeRound (cwStep cw)
  else if cwPhase cw = 5#3 then .instr .accum
  else .reserved .phase

/-- The decoder of both formats. No mode changes decoding (30_encoding.md R103). -/
def decode : Encoded → Decoded
  | .command w => decodeCommand w
  | .control cw => decodeControl cw

/-- The word of an instruction (30_encoding.md R91, R93, R94). In a row that ignores STEP the encoder writes 0 there
(assumption log 17). -/
def encode : Instr → Encoded
  | .nop => .command 0x00000000#32
  | .start => .command 0x00000001#32
  | .clrerr => .command 0x00000002#32
  | .wait => .control (controlWordOf 0#3 0#7)
  | .ldblk => .control (controlWordOf 1#3 0#7)
  | .perm => .control (controlWordOf 2#3 0#7)
  | .seed => .control (controlWordOf 3#3 0#7)
  | .stepF1 i => .control (controlWordOf 4#3 i)
  | .stepF2 i => .control (controlWordOf 4#3 i)
  | .stepF3 i => .control (controlWordOf 4#3 i)
  | .stepF4 i => .control (controlWordOf 4#3 i)
  | .stepF5 i => .control (controlWordOf 4#3 i)
  | .accum => .control (controlWordOf 5#3 0#7)

/-- A number read as a word of a format: format U for rows of at most 16 bits (the table's 10 in whole bytes), format C for
wider rows; a number that does not fit the format's 10 or 32 bits is no word of it. Assumption log 16. -/
def decodeNumber (nbits w : Nat) : Decoded :=
  if nbits ≤ 16 then
    if w < 2 ^ 10 then decodeControl (BitVec.ofNat 10 w) else .reserved .width
  else
    if w < 2 ^ 32 then decodeCommand (BitVec.ofNat 32 w) else .reserved .width

/-- The instruction the decoder reads from a row's bits as spec/opcode_table.json numbers them. -/
def decodeTableWord (nbits w : Nat) : Option Instr :=
  match decodeNumber nbits w with
  | .instr i => some i
  | .reserved _ => none

/-- One pattern of a format U row of spec/opcode_table.json: a control word matches when its bits under `mask` are `bits`. -/
structure ControlRow where
  mask : BitVec 10
  bits : BitVec 10
  toInstr : BitVec 7 → Instr

/-- The format U rows of spec/opcode_table.json, a STEP row once for each entry of its `patterns`
(30_encoding.md R94: the ranges are not aligned to powers of two). -/
def controlRows : List ControlRow :=
  [⟨0x380, 0x000, fun _ => .wait⟩, ⟨0x380, 0x080, fun _ => .ldblk⟩,
   ⟨0x380, 0x100, fun _ => .perm⟩, ⟨0x380, 0x180, fun _ => .seed⟩] ++
  [⟨0x3F0, 0x200, .stepF1⟩, ⟨0x3FF, 0x210, .stepF1⟩] ++
  [⟨0x3FF, 0x211, .stepF2⟩, ⟨0x3FE, 0x212, .stepF2⟩, ⟨0x3FC, 0x214, .stepF2⟩,
   ⟨0x3F8, 0x218, .stepF2⟩, ⟨0x3FF, 0x220, .stepF2⟩] ++
  [⟨0x3FF, 0x221, .stepF3⟩, ⟨0x3FE, 0x222, .stepF3⟩, ⟨0x3FC, 0x224, .stepF3⟩, ⟨0x3F8, 0x228, .stepF3⟩] ++
  [⟨0x3F0, 0x230, .stepF4⟩] ++
  [⟨0x3F0, 0x240, .stepF5⟩] ++
  [⟨0x380, 0x280, fun _ => .accum⟩]

/-- Does the row's pattern match? -/
def ControlRow.matchesWord (r : ControlRow) (cw : BitVec 10) : Bool := cw &&& r.mask == r.bits

/-- Every instruction whose row matches, in the table's order. -/
def rowMatches (cw : BitVec 10) : List Instr :=
  (controlRows.filter (·.matchesWord cw)).map (fun r => r.toInstr (cwStep cw))

end Sys2Proof
end

