-- ==== Sys2Proof/Machine/State.lean ====
section
/-! DEFINITION. The state of the machine as plain data (10_state.md R20 to R40), the turns of its agents (00_scope.md R15), the
ways a step can stop, and the state after reset (R49). -/

namespace Sys2Proof.Machine

/-- The codes of PHASE (30_encoding.md R93). PHASE is a 3-bit register whose codes 6 and 7 are never reached (10_state.md R27). -/
abbrev Phase.idle : BitVec 3 := 0#3
abbrev Phase.ldblk : BitVec 3 := 1#3
abbrev Phase.perm : BitVec 3 := 2#3
abbrev Phase.seed : BitVec 3 := 3#3
abbrev Phase.round : BitVec 3 := 4#3
abbrev Phase.accum : BitVec 3 := 5#3

/-- One host access, format B (30_encoding.md R90, R104; 46_host_commands.md R250). A REG access carries 32 bits and a MSG
access 8 bits; an access of another width cannot be written down (20_memory.md R66). -/
inductive Access where
  /-- `WR`, HostWrite(REG, off, v) -/
  | wr (off : Nat) (v : Word)
  /-- `RD`, HostRead(REG, off) -/
  | rd (off : Nat)
  /-- `WRB`, HostWrite(MSG, addr, v) -/
  | wrb (addr : Nat) (v : Byte)
  /-- `RDB`, HostRead(MSG, addr) -/
  | rdb (addr : Nat)
deriving DecidableEq, Repr

/-- Who moves next (20_memory.md R71) or the platform's reset (70_reset_and_hazards.md R310). -/
inductive Turn where
  | engine
  | host (x : Access)
  | reset
deriving DecidableEq, Repr

/-- What a host read returned (46_host_commands.md R250): a 32-bit register value or a message byte. -/
inductive Reply where
  | word (v : Word)
  | byte (v : Byte)
deriving DecidableEq, Repr

/-- The three sticky error flags (60_exceptions.md R281). -/
inductive ErrFlag where
  | elen
  | ebusy
  | ecmd
deriving DecidableEq, Repr

/-- What the machine is made of. The fields from `phase` to `ecmd` are 10_state.md's registers, `msg` its message buffer,
`cfg` the contents of its constant ROMs and the capacity of MSG, which nothing writes (20_memory.md R75; assumption log 1).
The last three are the model's own: the coming turns (log 6), the values the host's reads returned, newest first (log 9), and how
many free values were drawn (log 5). -/
structure State where
  /-- PHASE, R27 -/
  phase : BitVec 3
  /-- BLK, R28 -/
  blk : BitVec 56
  /-- STEP, R29 -/
  stepIdx : BitVec 7
  /-- the working registers a, b, c, d, e, R20 -/
  work : Five
  /-- the chaining registers H[0..4], R23 -/
  h : Five
  /-- the block buffer X[0..15], R25 -/
  x : Vector Word 16
  /-- the schedule buffer W[0..15], R26 -/
  w : Vector Word 16
  /-- MLEN, R31 -/
  mlen : BitVec 64
  /-- MSG, R32: the bytes written since reset, by strictly rising address; an unlisted address holds no value (R48) -/
  msg : List Host.Cell
  /-- DONE, R35 -/
  done : Bool
  /-- ELEN, R36 -/
  elen : Bool
  /-- EBUSY, R36 -/
  ebusy : Bool
  /-- ECMD, R36 -/
  ecmd : Bool
  /-- the SHIFTS, K and IV ROMs and MSG_BYTES, R43 to R45, R32 -/
  cfg : Cfg
  /-- the coming turns -/
  turns : List Turn
  /-- what the host's reads returned, newest first -/
  replies : List Reply
  /-- how many free values were drawn -/
  draws : Nat
deriving DecidableEq, Repr

/-- Where the machine stops with a fault. Both are safe: the spec gives no step there. -/
inductive Fault where
  /-- Raised by the engine's turn when (PHASE, STEP) selects no micro-operation: 30_encoding.md R100, "its step relation has no
  step from such a state". Safe; unreachable from reset (10_state.md R50). Assumption log 12. -/
  | reservedControlWord
  /-- Raised by a micro-operation's meaning in a state whose control word does not select that micro-operation:
  45_sequencer.md R230, "at most one step, selected by the control word". Safe; no step of the machine raises it.
  Assumption log 10. -/
  | notSelected
deriving DecidableEq, Repr

/-- Where there is no meaning. All are safe: the spec puts the situation outside the model. -/
inductive Refusal where
  /-- Raised by the dispatch for an instruction that has no meaning yet. Safe. -/
  | notModelled (mnemonic : String)
  /-- Raised by a host access at an offset outside the register map or at a MSG address ≥ MSG_BYTES: 20_memory.md R66, "a model
  has no host step for it". Safe. Assumption log 13. -/
  | outsideEngine
  /-- Raised by every host access and command, and by every micro-operation of a run, in a state that breaks an invariant of
  10_state.md R50: a model "gives no behaviour to states that break them". Safe; unreachable from reset. Assumption log 11. -/
  | outsideInvariants
deriving DecidableEq, Repr

/-- What a meaning answers. -/
abbrev Result := Host.Outcome State Fault Refusal

/-- The state after hardware reset (10_state.md R49): PHASE = IDLE, DONE = ELEN = EBUSY = ECMD = 0, MLEN = 0, no MSG byte
written. BLK, STEP, a..e, H, X, W have no value in the spec; they are zero here, DESIGN CHOICE, assumption log 2. -/
def State.reset : State where
  phase := Phase.idle
  blk := 0#56
  stepIdx := 0#7
  work := ⟨0#32, 0#32, 0#32, 0#32, 0#32⟩
  h := ⟨0#32, 0#32, 0#32, 0#32, 0#32⟩
  x := Vector.replicate 16 0#32
  w := Vector.replicate 16 0#32
  mlen := 0#64
  msg := []
  done := false
  elen := false
  ebusy := false
  ecmd := false
  cfg := Config.cfg
  turns := []
  replies := []
  draws := 0

end Sys2Proof.Machine
end

