-- ==== Sys2Proof/Machine/Ops.lean ====
section
/-! DEFINITION. The named operations over memory, words and registers that the meanings share: the message buffer, byte order,
the shifter, the five-lane adder, raising and clearing the error flags (the engine's only "exception entry" and "return",
60_exceptions.md R284, R285), hardware reset, and the gates every meaning goes through. -/

namespace Sys2Proof.Machine

/-! ## The message buffer, a list of (address, byte) with strictly rising addresses -/

/-- What an address that is not listed reads as: no value (10_state.md R48, R49). The accessors below turn it into a free byte. -/
def Memory.unlisted : Option Byte := none

/-- The byte last written at `a` since reset, if any. -/
def Memory.read : List Host.Cell → Nat → Option Byte
  | [], _ => Memory.unlisted
  | (k, v) :: m, a => if k = a then some v else Memory.read m a

/-- Write one byte, keeping the addresses strictly rising. -/
def Memory.write : List Host.Cell → Nat → Byte → List Host.Cell
  | [], a, v => [(a, v)]
  | (k, u) :: m, a, v =>
    if a < k then (a, v) :: (k, u) :: m
    else if a = k then (a, v) :: m
    else (k, u) :: Memory.write m a v

/-- The canonical form: strictly rising addresses. (No listed byte can equal what an unlisted address reads as, for that is no
value at all.) -/
def Memory.wf (m : List Host.Cell) : Bool := decide (m.Pairwise (fun p q => p.1 < q.1))

/-- Every listed address is an address of a buffer of `cap` bytes (10_state.md R32). -/
def Memory.within (cap : Nat) (m : List Host.Cell) : Bool := m.all (fun p => decide (p.1 < cap))

/-- The byte at MSG address `a`; one never written since reset gives the free byte of the current draw (46_host_commands.md
R259, 70_reset_and_hazards.md R313). Assumption log 3. -/
def State.messageByte (s : State) (a : Nat) : Byte :=
  match Memory.read s.msg a with
  | some v => v
  | none => Config.freeByte s.draws a

/-- Does a message of `n` bytes fit the buffer: n ≤ MSG_BYTES (46_host_commands.md R252), said as: it is empty, or its last
byte has an address of the buffer. `fits_iff` in Laws/Ops.lean gives the inequality. -/
def fits (cfg : Cfg) (n : Nat) : Bool :=
  match n with
  | 0 => true
  | k + 1 => decide (k < cfg.msgBytes.val)

/-! ## Words -/

/-- A word of four bytes in sequence order, the first the most significant (20_memory.md R62). -/
def wordOfBytes (p0 p1 p2 p3 : Byte) : Word := p0 ++ p1 ++ p2 ++ p3

/-- A sixteen-word buffer filled all at once. -/
def words16 (f : Nat → Word) : Vector Word 16 :=
  #v[f 0, f 1, f 2, f 3, f 4, f 5, f 6, f 7, f 8, f 9, f 10, f 11, f 12, f 13, f 14, f 15]

/-- SHL32: a plain left shift by 0..31 that loses the high bits (00_scope.md R12, 43_step.md R183). -/
def shl32 (x : Word) (s : Fin 32) : Word := x <<< s.val

/-- Five independent `+32` additions (44_chaining_output.md R210). -/
def addLanes (p q : Five) : Five :=
  { a := p.a + q.a, b := p.b + q.b, c := p.c + q.c, d := p.d + q.d, e := p.e + q.e }

/-- Register k of five: H[0] = A, ..., H[4] = E (10_state.md R23). -/
def lane (p : Five) : Fin 5 → Word
  | 0 => p.a
  | 1 => p.b
  | 2 => p.c
  | 3 => p.d
  | 4 => p.e

/-! ## Errors, replies, reset -/

/-- `raise <flag>`: set the sticky flag, one that is set stays set, and do nothing else of the access (60_exceptions.md R281,
R284: "There is no trap entry"). -/
def raiseFlag (f : ErrFlag) (s : State) : State :=
  match f with
  | .elen => { s with elen := true }
  | .ebusy => { s with ebusy := true }
  | .ecmd => { s with ecmd := true }

/-- Clear the three error flags together, the only "return" there is (60_exceptions.md R285, 46_host_commands.md R253). -/
def clearErrors (s : State) : State := { s with elen := false, ebusy := false, ecmd := false }

/-- A host read returns a value: the host's record grows, the engine's state stays (20_memory.md R70). Assumption log 9. -/
def reply (r : Reply) (s : State) : State := { s with replies := r :: s.replies }

/-- A host read returns an unspecified 32-bit value, drawn anew at every read (46_host_commands.md R258). Assumption log 4. -/
def replyFreeWord (s : State) : State :=
  { s with replies := .word (Config.freeWord s.draws) :: s.replies, draws := s.draws + 1 }

/-- A host read of MSG returns an unspecified byte (46_host_commands.md R259). Assumption log 3. -/
def replyFreeByte (a : Nat) (s : State) : State :=
  { s with replies := .byte (Config.freeByte s.draws a) :: s.replies, draws := s.draws + 1 }

/-- Hardware reset, one atomic step in any state (70_reset_and_hazards.md R310, R312): the engine is as 10_state.md R49 says,
its ROMs are untouched; what lies outside the engine (the coming turns, the host's record, the count of draws) stays.
It has this effect from a state that breaks R50 too. Assumption logs 2, 15 and 21. -/
def hardwareReset (s : State) : State :=
  { State.reset with cfg := s.cfg, turns := s.turns, replies := s.replies, draws := s.draws }

/-! ## Gates -/

/-- cw = PHASE · 128 + STEP, the name of a pair of registers, not a register (30_encoding.md R92). -/
def State.controlWord (s : State) : BitVec 10 := controlWordOf s.phase s.stepIdx

/-- The micro-operation that the control word selects (45_sequencer.md R230). -/
def State.selected (s : State) : Decoded := decodeControl s.controlWord

/-- A micro-operation is enabled exactly when the control word selects it (45_sequencer.md R230 to R236). Assumption log 10. -/
def whenSelected (i : Instr) (s : State) (k : Result) : Result :=
  if s.selected = .instr i then k else .fault .notSelected

/-- The gate of START and of the writes to MLEN and MSG: while PHASE ≠ IDLE the access is discarded and raises EBUSY
(46_host_commands.md R252, R255, R256). -/
def unlessBusy (s : State) (k : State) : State :=
  if s.phase = Phase.idle then k else raiseFlag .ebusy s

end Sys2Proof.Machine
end

