-- ==== Sys2Proof/Machine/Operands.lean ====
section
/-! DEFINITION. Operand selection: the selectors a STEP micro-operation derives from the step index (format S, 30_encoding.md
R95 to R97), the table lookups (43_step.md R184), the ROMs RHO and π, the register map of the host (10_state.md R37) and the
encoding triple of a host access (format B, 30_encoding.md R90, R104). -/

namespace Sys2Proof.Machine

/-! ## Format S -/

/-- The five rounds (42_round_functions.md R165). -/
inductive Round where
  | r1
  | r2
  | r3
  | r4
  | r5
deriving DecidableEq, Repr

/-- The round's number, 1 to 5. -/
def Round.number : Round → Nat
  | .r1 => 1
  | .r2 => 2
  | .r3 => 3
  | .r4 => 4
  | .r5 => 5

/-- r = round − 1, the row of SHIFTS and of K (42_round_functions.md R165, 43_step.md R184). -/
def Round.row : Round → Fin 5
  | .r1 => 0
  | .r2 => 1
  | .r3 => 2
  | .r4 => 3
  | .r5 => 4

/-- RoundSel(i): the first of the document's five conditions that i satisfies, in their order, so that step 32 is round 2
(42_round_functions.md R165, 90_conflicts.md C2). -/
def roundSel (i : Nat) : Round :=
  if i ≤ 16 then .r1
  else if 16 < i ∧ i ≤ 32 then .r2
  else if 32 ≤ i ∧ i < 48 then .r3
  else if 48 ≤ i ∧ i < 64 then .r4
  else .r5

/-- The π ROM, π(i) = (9·i + 5) mod 16 (43_step.md R180, 10_state.md R42). -/
def piRom (i : Nat) : Fin 16 := ⟨(9 * i + 5) % 16, Nat.mod_lt _ (by decide)⟩

/-- The RHO ROM (41_block_words.md R142, 10_state.md R41). -/
def rhoRom : Vector (Fin 16) 16 := #v[7, 4, 13, 1, 10, 6, 15, 3, 12, 0, 9, 5, 2, 14, 11, 8]

/-- scol = i mod 16, the column of SHIFTS (30_encoding.md R95). -/
def shiftCol (i : Nat) : Fin 16 := ⟨i % 16, Nat.mod_lt _ (by decide)⟩

/-- kcol = i mod 5, the column of K (30_encoding.md R95). -/
def kCol (i : Nat) : Fin 5 := ⟨i % 5, Nat.mod_lt _ (by decide)⟩

/-- The selectors of one step index (30_encoding.md R95). -/
structure Selectors where
  r : Fin 5
  wsel : Fin 16
  xsel : Fin 16
  scol : Fin 16
  kcol : Fin 5
deriving DecidableEq, Repr

/-- All selectors derived from i, "and no others" (30_encoding.md R95). -/
def selectors (i : Nat) : Selectors where
  r := (roundSel i).row
  wsel := piRom i
  xsel := rhoRom.get (piRom i)
  scol := shiftCol i
  kcol := kCol i

/-- shiftAmount = CFG.SHIFTS[r][i mod 16], used as it is (43_step.md R184). -/
def shiftAmount (cfg : Cfg) (r : Round) (i : Nat) : Fin 32 := (cfg.shifts.get r.row).get (shiftCol i)

/-- roundConstant = CFG.K[r][i mod 5], used as it is (43_step.md R184). -/
def roundConstant (cfg : Cfg) (r : Round) (i : Nat) : Word := (cfg.k.get r.row).get (kCol i)

/-! ## The register map -/

/-- The nine registers of the space REG (10_state.md R37). -/
inductive Reg where
  | cmd
  | status
  | mlenLo
  | mlenHi
  | digest (k : Fin 5)
deriving DecidableEq, Repr

/-- The register's byte offset (10_state.md R37). -/
def Reg.offset : Reg → Nat
  | .cmd => 0x00
  | .status => 0x04
  | .mlenLo => 0x08
  | .mlenHi => 0x0C
  | .digest k => 0x10 + 4 * k.val

/-- The register at an offset; other offsets are not part of the engine (10_state.md R37, 20_memory.md R68). -/
def regAt (off : Nat) : Option Reg :=
  if off = 0x00 then some .cmd
  else if off = 0x04 then some .status
  else if off = 0x08 then some .mlenLo
  else if off = 0x0C then some .mlenHi
  else if off = 0x10 then some (.digest 0)
  else if off = 0x14 then some (.digest 1)
  else if off = 0x18 then some (.digest 2)
  else if off = 0x1C then some (.digest 3)
  else if off = 0x20 then some (.digest 4)
  else none

/-- MLEN_LO = MLEN[31:0] (10_state.md R39). -/
def State.mlenLo (s : State) : Word := s.mlen.extractLsb' 0 32

/-- MLEN_HI = MLEN[63:32] (10_state.md R39). -/
def State.mlenHi (s : State) : Word := s.mlen.extractLsb' 32 32

/-- MLEN = MLEN_HI · 2^32 + MLEN_LO (10_state.md R39). -/
def mlenOf (hi lo : Word) : BitVec 64 := hi ++ lo

/-! ## Format B -/

/-- The two address spaces a host reaches (20_memory.md R60). -/
inductive Space where
  | reg
  | msg
deriving DecidableEq, Repr

/-- The encoding triple of a host access: direction, space, offset or address, and the data of a write
(30_encoding.md R90, R104). -/
structure Triple where
  write : Bool
  space : Space
  addr : Nat
  data : Option Nat
deriving DecidableEq, Repr

/-- 30_encoding.md R104. -/
def Access.triple : Access → Triple
  | .wr off v => ⟨true, .reg, off, some v.toNat⟩
  | .rd off => ⟨false, .reg, off, none⟩
  | .wrb addr v => ⟨true, .msg, addr, some v.toNat⟩
  | .rdb addr => ⟨false, .msg, addr, none⟩

/-- The access a triple stands for. A read carries no data, a write carries data of its space's width, a register access is at
an offset of the map and a byte access below the capacity; everything else "is not an access to the engine"
(20_memory.md R66, 30_encoding.md R102). -/
def accessOf (cap : Nat) (t : Triple) : Option Access :=
  match t.write, t.space, t.data with
  | true, .reg, some v => if (regAt t.addr).isSome ∧ v < 2 ^ 32 then some (.wr t.addr (BitVec.ofNat 32 v)) else none
  | false, .reg, none => if (regAt t.addr).isSome then some (.rd t.addr) else none
  | true, .msg, some v => if t.addr < cap ∧ v < 2 ^ 8 then some (.wrb t.addr (BitVec.ofNat 8 v)) else none
  | false, .msg, none => if t.addr < cap then some (.rdb t.addr) else none
  | _, _, _ => none

/-- Is the access one to the engine, for a buffer of `cap` bytes (20_memory.md R66)? -/
def Access.inMap (cap : Nat) : Access → Bool
  | .wr off _ => (regAt off).isSome
  | .rd off => (regAt off).isSome
  | .wrb addr _ => decide (addr < cap)
  | .rdb addr => decide (addr < cap)

end Sys2Proof.Machine
end

