-- ==== Sys2Proof/Machine/Padding.lean ====
section
/-! DEFINITION. The message padding unit (40_padding.md R120 to R131): the padded bit sequence part by part, and the byte view
that LDBLK evaluates. Nothing here writes state. Every function that contains the length field takes a message, or a length, of at
most 2^61 − 1 bytes by its type, and so gives no value outside that precondition (40_padding.md R129). -/

namespace Sys2Proof.Machine

/-! ## Bit sequences (00_scope.md R13) -/

/-- BE(n, v): the n bits of v, most significant first. -/
def beBits (n v : Nat) : List Bool := (List.range n).map (fun j => v.testBit (n - 1 - j))

/-- UINT(S): the integer that a bit sequence spells, its first bit the most significant. -/
def uint (bits : List Bool) : Nat := bits.foldl (fun acc b => 2 * acc + b.toNat) 0

/-! ## The length bound -/

/-- A message length: n ≤ 2^61 − 1, so that L = 8n is below 2^64 (40_padding.md R129, 93_implementation_defined.md U7). -/
abbrev MsgLen := Fin (2 ^ 61)

/-- A message of the pure functions: its length is within the bound, the precondition of the padding and of `Digest`
(40_padding.md R129, 91_not_in_source.md N6). -/
abbrev Message := { bytes : List Byte // bytes.length < 2 ^ 61 }

/-- n, the number of bytes of a message. -/
def Message.len (m : Message) : MsgLen := ⟨m.val.length, m.property⟩

/-! ## The padded sequence, part by part -/

/-- MsgBits: each byte most significant bit first, in order (40_padding.md R120, 20_memory.md R61). -/
def msgBits (m : List Byte) : List Bool := m.flatMap (fun v => beBits 8 v.toNat)

/-- z = (447 − L) mod 512 zero bits, the remainder non-negative (40_padding.md R122, 00_scope.md R11). -/
def zeroFill (bitLen : Nat) : Nat := ((447 - (bitLen : Int)) % 512).toNat

/-- P = MsgBits ‖ 1 ‖ 0^z ‖ BE(64, L): the terminator is unconditional (40_padding.md R121, R123, R124), for a message
within the bound of R129. -/
def padBits (m : Message) : List Bool :=
  msgBits m.val ++ [true] ++ List.replicate (zeroFill (8 * m.len.val)) false ++ beBits 64 (8 * m.len.val)

/-- PLEN = L + 65 + ((447 − L) mod 512) for a message of n bytes, L = 8n (40_padding.md R124). -/
def paddedLength (n : Nat) : Nat := 8 * n + 1 + zeroFill (8 * n) + 64

/-- NB = (n + 8) div 64 + 1 (40_padding.md R125, 10_state.md R30). -/
def numBlocks (n : Nat) : Nat := (n + 8) / 64 + 1

/-! ## The byte view -/

/-- PadByte(m) of a message of n bytes that `msg` reads (40_padding.md R127); m is below 64·NB. -/
def padByte (msg : Nat → Byte) (n : MsgLen) (m : Nat) : Byte :=
  if m < n.val then msg m
  else if m = n.val then 0x80#8
  else if m < 64 * numBlocks n.val - 8 then 0x00#8
  else BitVec.ofNat 8 (8 * n.val / 2 ^ (8 * (64 * numBlocks n.val - 1 - m)))

/-- The bit view PadBit(j) (40_padding.md R126), for a padding unit that produces bits on demand; j is below PLEN. -/
def padBit (msg : Nat → Byte) (n : MsgLen) (j : Nat) : Bool :=
  if j < 8 * n.val then (msg (j / 8)).getLsbD (7 - j % 8)
  else if j = 8 * n.val then true
  else if j < paddedLength n.val - 64 then false
  else (8 * n.val).testBit (63 - (j - (paddedLength n.val - 64)))

end Sys2Proof.Machine
end

