-- ==== Sys2Proof/Machine/Invariants.lean ====
section
/-! DEFINITION. The invariants (1) to (4) of 10_state.md R50 as a test on the state, and the two gates that give a state which
breaks them no behaviour: the host's accesses and commands go through `whenLawful`, the engine's micro-operations through
`whenInRun`. R50 (5) holds by the type `Word`. The hardware has no such test (60_exceptions.md R287): the refusal is the model's
word for "no behaviour", and no step leads to it. Assumption log 11. -/

namespace Sys2Proof.Machine

/-- What R50 (3) and (4) ask of a state whose PHASE is not IDLE: BLK < NB, MLEN ≤ MSG_BYTES, and DONE = 0. -/
def State.inRun (s : State) : Bool :=
  decide (s.blk.toNat < numBlocks s.mlen.toNat) && fits s.cfg s.mlen.toNat && !s.done

/-- R50 (1) to (4): PHASE is in 0..5; in ROUND STEP ≤ 79; and IDLE, or as a run is. `lawful_iff` in Laws/Invariants.lean spells
them out. -/
def State.lawful (s : State) : Bool :=
  decide (s.phase.toNat ≤ 5) && (decide (s.phase ≠ Phase.round) || decide (s.stepIdx.toNat ≤ 79)) &&
    (decide (s.phase = Phase.idle) || s.inRun)

/-- In a run MLEN is within the bound of 40_padding.md R129, because MSG_BYTES is (00_scope.md R8). -/
theorem inRun_lt {s : State} (h : s.inRun = true) : s.mlen.toNat < 2 ^ 61 := by
  have hf : fits s.cfg s.mlen.toNat = true := (Bool.and_eq_true_iff.1 (Bool.and_eq_true_iff.1 h).1).2
  have hb := s.cfg.msgBytes.isLt
  unfold fits at hf
  split at hf
  · omega
  · have := of_decide_eq_true hf
    omega

/-- The gate of host accesses and commands: no behaviour in a state that breaks R50 (10_state.md R50, 60_exceptions.md R287). -/
def whenLawful (s : State) (k : Result) : Result :=
  if s.lawful then k else .refused .outsideInvariants

/-- The gate of a micro-operation of a run: it is the selected one, which gives R50 (1) and (2), and the state meets R50 (3) and
(4); a state that breaks them has no behaviour (10_state.md R50, 60_exceptions.md R287). -/
def whenInRun (i : Instr) (s : State) (k : s.inRun = true → Result) : Result :=
  whenSelected i s (if h : s.inRun = true then k h else .refused .outsideInvariants)

end Sys2Proof.Machine
end

