-- ==== Sys2Proof/Machine/Block.lean ====
section
/-! DEFINITION. The micro-operations that prepare a block: LDBLK, PERM, SEED (41_block_words.md R140 to R146) with their
transitions (45_sequencer.md R232 to R234). -/

namespace Sys2Proof.Machine

/-- X[j] of block k: the four padded bytes from 64k + 4j, the first the most significant (41_block_words.md R141). -/
def blockWord (msg : Nat → Byte) (n : MsgLen) (k j : Nat) : Word :=
  wordOfBytes (padByte msg n (64 * k + 4 * j)) (padByte msg n (64 * k + 4 * j + 1))
    (padByte msg n (64 * k + 4 * j + 2)) (padByte msg n (64 * k + 4 * j + 3))

/-- The sixteen words of block k, all at once (41_block_words.md R140, R141). -/
def loadBlock (msg : Nat → Byte) (n : MsgLen) (k : Nat) : Vector Word 16 := words16 (blockWord msg n k)

/-- (W[0], ..., W[15]) <- (X[RHO[0]], ..., X[RHO[15]]) into a fresh buffer (41_block_words.md R143). -/
def permute (x : Vector Word 16) : Vector Word 16 :=
  #v[x.get (rhoRom.get 0), x.get (rhoRom.get 1), x.get (rhoRom.get 2), x.get (rhoRom.get 3),
     x.get (rhoRom.get 4), x.get (rhoRom.get 5), x.get (rhoRom.get 6), x.get (rhoRom.get 7),
     x.get (rhoRom.get 8), x.get (rhoRom.get 9), x.get (rhoRom.get 10), x.get (rhoRom.get 11),
     x.get (rhoRom.get 12), x.get (rhoRom.get 13), x.get (rhoRom.get 14), x.get (rhoRom.get 15)]

/-- LDBLK (41_block_words.md R141, 45_sequencer.md R232): X <- the words of block BLK, PHASE <- 2. It counts one draw, from
which a message byte never written takes its free value (assumption logs 3 and 5). -/
def execLdblk (s : State) : Result :=
  whenInRun .ldblk s fun h => .next { s with
    x := loadBlock s.messageByte ⟨s.mlen.toNat, inRun_lt h⟩ s.blk.toNat
    phase := Phase.perm
    draws := s.draws + 1 }

/-- PERM (41_block_words.md R143, 45_sequencer.md R233): W <- X through the ρ ROM, PHASE <- 3. -/
def execPerm (s : State) : Result :=
  whenInRun .perm s fun _ => .next { s with w := permute s.x, phase := Phase.seed }

/-- SEED (41_block_words.md R145, 45_sequencer.md R234): (a, b, c, d, e) <- H, STEP <- 0, PHASE <- 4. -/
def execSeed (s : State) : Result :=
  whenInRun .seed s fun _ => .next { s with work := s.h, stepIdx := 0#7, phase := Phase.round }

end Sys2Proof.Machine
end

