-- ==== Sys2Proof/Machine/Chaining.lean ====
section
/-! DEFINITION. The chaining accumulator ACCUM (44_chaining_output.md R210, R211) with its transition (45_sequencer.md R236), and
WAIT (45_sequencer.md R231). -/

namespace Sys2Proof.Machine

/-- The ACCUM transition: the next block while BLK + 1 < NB, else the run ends with DONE <- 1 and BLK is left at NB − 1
(45_sequencer.md R236). -/
def advanceBlock (s : State) : State :=
  if s.blk.toNat + 1 < numBlocks s.mlen.toNat then { s with blk := s.blk + 1#56, phase := Phase.ldblk }
  else { s with phase := Phase.idle, done := true }

/-- ACCUM (44_chaining_output.md R210): H[k] <- H[k] +32 the k-th working register, then the transition. -/
def execAccum (s : State) : Result :=
  whenInRun .accum s fun _ => .next (advanceBlock { s with h := addLanes s.h s.work })

/-- WAIT (45_sequencer.md R231): in IDLE the engine changes no state; its turn passes. A state in which it is selected
breaks no invariant of 10_state.md R50. Assumption log 8. -/
def execWait (s : State) : Result := whenSelected .wait s (.next s)

end Sys2Proof.Machine
end

