-- ==== Sys2Proof/Machine/Command.lean ====
section
/-! DEFINITION. The host commands NOP, START, CLRERR (46_host_commands.md R251 to R253). -/

namespace Sys2Proof.Machine

/-- NOP: nothing (46_host_commands.md R251). -/
def execNop (s : State) : Result := whenLawful s (.next s)

/-- What an accepted START does (46_host_commands.md R252). -/
def acceptStart (s : State) : State :=
  { s with h := s.cfg.iv, blk := 0#56, done := false, phase := Phase.ldblk }

/-- START: EBUSY unless idle, else ELEN if MLEN > MSG_BYTES, else accepted (46_host_commands.md R252, 60_exceptions.md R283). -/
def execStart (s : State) : Result :=
  whenLawful s (.next (unlessBusy s (if fits s.cfg s.mlen.toNat then acceptStart s else raiseFlag .elen s)))

/-- CLRERR: the three error flags <- 0, whatever the phase (46_host_commands.md R253). -/
def execClrerr (s : State) : Result := whenLawful s (.next (clearErrors s))

end Sys2Proof.Machine
end

