-- ==== Sys2Proof/Machine/RoundFunctions.lean ====
section
/-! DEFINITION. The round function mux (42_round_functions.md R160 to R164, R167): five pure bitwise functions of three words. -/

namespace Sys2Proof.Machine

/-- F1 = b XOR c XOR d (R160). -/
def f1 (b c d : Word) : Word := b ^^^ c ^^^ d

/-- F2 = (b AND c) OR (NOT32(b) AND d) (R161). -/
def f2 (b c d : Word) : Word := (b &&& c) ||| (~~~b &&& d)

/-- F3 = (b OR NOT32(c)) XOR d (R162). -/
def f3 (b c d : Word) : Word := (b ||| ~~~c) ^^^ d

/-- F4 = (b AND d) OR (c AND NOT32(d)) (R163). -/
def f4 (b c d : Word) : Word := (b &&& d) ||| (c &&& ~~~d)

/-- F5 = b XOR (c OR NOT32(d)) (R164). -/
def f5 (b c d : Word) : Word := b ^^^ (c ||| ~~~d)

/-- The mux: the round alone selects (42_round_functions.md R167). -/
def roundFn : Round → Word → Word → Word → Word
  | .r1 => f1
  | .r2 => f2
  | .r3 => f3
  | .r4 => f4
  | .r5 => f5

end Sys2Proof.Machine
end

