-- ==== Sys2Proof/Machine/Compress.lean ====
section
/-! DEFINITION. The 80-step compression datapath (43_step.md R182 to R195): the common datapath of a step and the five STEP
micro-operations with their transition (45_sequencer.md R235). -/

namespace Sys2Proof.Machine

/-- One step on the five working registers, given the round function, the word, the constant and the shift amount
(43_step.md R185): every right-hand side reads the registers before the step. -/
def stepRegs (fn : Word → Word → Word → Word) (word k : Word) (amount : Fin 32) (r : Five) : Five :=
  let tmp := r.e
  let sum := r.a + fn r.b r.c r.d + word + k
  { a := tmp
    b := shl32 sum amount + tmp
    c := r.b
    d := shl32 r.c 10
    e := r.d }

/-- The registers after the step at index i in round r: the word is W[π(i)], the table cells are those of row r
(43_step.md R184, R185). -/
def roundRegs (cfg : Cfg) (w : Vector Word 16) (r : Round) (i : Nat) (regs : Five) : Five :=
  stepRegs (roundFn r) (w.get (piRom i)) (roundConstant cfg r i) (shiftAmount cfg r i) regs

/-- The ROUND transition: STEP <- i + 1 below 79, PHASE <- 5 at 79, where STEP is left (45_sequencer.md R235). -/
def advanceStep (i : BitVec 7) (s : State) : State :=
  if i.toNat < 79 then { s with stepIdx := i + 1#7 } else { s with phase := Phase.accum }

/-- A STEP micro-operation of round r at index i: the datapath, then the transition. -/
def roundStep (r : Round) (i : BitVec 7) (s : State) : State :=
  advanceStep i { s with work := roundRegs s.cfg s.w r i.toNat s.work }

/-- STEP.F1 at step index i (43_step.md R186). -/
def execStepF1 (i : BitVec 7) (s : State) : Result := whenInRun (.stepF1 i) s fun _ => .next (roundStep .r1 i s)

/-- STEP.F2 at step index i (43_step.md R187). -/
def execStepF2 (i : BitVec 7) (s : State) : Result := whenInRun (.stepF2 i) s fun _ => .next (roundStep .r2 i s)

/-- STEP.F3 at step index i (43_step.md R188). -/
def execStepF3 (i : BitVec 7) (s : State) : Result := whenInRun (.stepF3 i) s fun _ => .next (roundStep .r3 i s)

/-- STEP.F4 at step index i (43_step.md R189). -/
def execStepF4 (i : BitVec 7) (s : State) : Result := whenInRun (.stepF4 i) s fun _ => .next (roundStep .r4 i s)

/-- STEP.F5 at step index i (43_step.md R190). -/
def execStepF5 (i : BitVec 7) (s : State) : Result := whenInRun (.stepF5 i) s fun _ => .next (roundStep .r5 i s)

end Sys2Proof.Machine
end

