-- ==== Sys2Proof/Machine/Dispatch.lean ====
section
/-! DEFINITION. One arm per instruction. -/

namespace Sys2Proof.Machine

def exec (i : Instr) (s : State) : Host.Outcome State Fault Refusal :=
  match i with
  | .nop => Sys2Proof.Machine.execNop s
  | .start => Sys2Proof.Machine.execStart s
  | .clrerr => Sys2Proof.Machine.execClrerr s
  | .wait => Sys2Proof.Machine.execWait s
  | .ldblk => Sys2Proof.Machine.execLdblk s
  | .perm => Sys2Proof.Machine.execPerm s
  | .seed => Sys2Proof.Machine.execSeed s
  | .stepF1 i1 => Sys2Proof.Machine.execStepF1 i1 s
  | .stepF2 i2 => Sys2Proof.Machine.execStepF2 i2 s
  | .stepF3 i3 => Sys2Proof.Machine.execStepF3 i3 s
  | .stepF4 i4 => Sys2Proof.Machine.execStepF4 i4 s
  | .stepF5 i5 => Sys2Proof.Machine.execStepF5 i5 s
  | .accum => Sys2Proof.Machine.execAccum s

end Sys2Proof.Machine
end

