-- ==== Sys2Proof/Machine/Flags.lean ====
section
/-! DEFINITION. The status flags as the host reads them (10_state.md R33 to R37, 46_host_commands.md R257). The datapath sets no
flag (43_step.md R194); the stored flags are written by `raiseFlag`, `clearErrors`, START, ACCUM and reset only. -/

namespace Sys2Proof.Machine

/-- BUSY = 1 exactly when PHASE is not IDLE; no stored bit (10_state.md R34). -/
def State.busy (s : State) : Bool := s.phase != Phase.idle

/-- STATUS = BUSY + 2·DONE + 4·ELEN + 8·EBUSY + 16·ECMD, bits 31:5 zero (46_host_commands.md R257). -/
def State.status (s : State) : Word :=
  BitVec.ofNat 32
    (s.busy.toNat + 2 * s.done.toNat + 4 * s.elen.toNat + 8 * s.ebusy.toNat + 16 * s.ecmd.toNat)

/-- The STATUS bit of an error flag (60_exceptions.md R281). -/
def ErrFlag.bit : ErrFlag → Nat
  | .elen => 2
  | .ebusy => 3
  | .ecmd => 4

end Sys2Proof.Machine
end

