-- ==== Sys2Proof/Machine/HostAccess.lean ====
section
/-! DEFINITION. Host accesses (46_host_commands.md R250 to R260): a write to CMD decodes and runs a command, the writes of MLEN
and MSG, the reads, and the writes that are ignored. -/

namespace Sys2Proof.Machine

/-- A write to CMD is a command and is consumed at once (10_state.md R38): it is decoded and run; a reserved value raises ECMD
and does nothing else, whatever the phase (46_host_commands.md R254, 60_exceptions.md R283). -/
def hostCommand (v : Word) (s : State) : Result :=
  match decodeCommand v with
  | .instr i => exec i s
  | .reserved _ => .next (raiseFlag .ecmd s)

/-- HostWrite(REG, off, v): CMD (R251 to R254), MLEN_LO and MLEN_HI (R255); STATUS and DIGEST writes change nothing (R260). -/
def hostWriteReg (r : Reg) (v : Word) (s : State) : Result :=
  match r with
  | .cmd => hostCommand v s
  | .status => .next s
  | .mlenLo => .next (unlessBusy s { s with mlen := mlenOf s.mlenHi v })
  | .mlenHi => .next (unlessBusy s { s with mlen := mlenOf v s.mlenLo })
  | .digest _ => .next s

/-- HostRead(REG, off): CMD gives 0, STATUS its five bits, MLEN its halves (R257, R259); DIGESTk gives H[k] when DONE = 1 and an
unspecified value otherwise (R258). -/
def hostReadReg (r : Reg) (s : State) : State :=
  match r with
  | .cmd => reply (.word 0x00000000#32) s
  | .status => reply (.word s.status) s
  | .mlenLo => reply (.word s.mlenLo) s
  | .mlenHi => reply (.word s.mlenHi) s
  | .digest k => if s.done then reply (.word (lane s.h k)) s else replyFreeWord s

/-- HostWrite(MSG, addr, v) (R256). -/
def hostWriteByte (addr : Nat) (v : Byte) (s : State) : State :=
  unlessBusy s { s with msg := Memory.write s.msg addr v }

/-- HostRead(MSG, addr) (R259). -/
def hostReadByte (addr : Nat) (s : State) : State :=
  match Memory.read s.msg addr with
  | some v => reply (.byte v) s
  | none => replyFreeByte addr s

/-- One host access, atomic (46_host_commands.md R250, 20_memory.md R67). An offset outside the map or an address outside the
buffer is no access to the engine (20_memory.md R66, 30_encoding.md R102). Assumption log 13. -/
def hostAccess (acc : Access) (s : State) : Result :=
  whenLawful s <|
    match acc with
    | .wr off v =>
      match regAt off with
      | some r => hostWriteReg r v s
      | none => .refused .outsideEngine
    | .rd off =>
      match regAt off with
      | some r => .next (hostReadReg r s)
      | none => .refused .outsideEngine
    | .wrb addr v => if addr < s.cfg.msgBytes.val then .next (hostWriteByte addr v s) else .refused .outsideEngine
    | .rdb addr => if addr < s.cfg.msgBytes.val then .next (hostReadByte addr s) else .refused .outsideEngine

end Sys2Proof.Machine
end

