-- ==== Sys2Proof/Machine/Turns.lean ====
section
/-! DEFINITION. One turn of the machine: the engine's step relation (45_sequencer.md R230), a host access, or reset, in the order
that the list of coming turns gives (20_memory.md R71); and how an instruction is placed so that the next turn runs it. -/

namespace Sys2Proof.Machine

/-- The engine's turn: the one micro-operation that (PHASE, STEP) selects; a control word that selects none has no step
(45_sequencer.md R230, 30_encoding.md R100). Assumption log 12. -/
def engineTurn (s : State) : Result :=
  match s.selected with
  | .instr i => exec i s
  | .reserved _ => .fault .reservedControlWord

/-- Take the next turn. When no turn is listed the engine has it (70_reset_and_hazards.md R325). Assumption log 6. -/
def takeTurn (s : State) : Result :=
  match s.turns with
  | [] => engineTurn s
  | .engine :: ts => engineTurn { s with turns := ts }
  | .host acc :: ts => hostAccess acc { s with turns := ts }
  | .reset :: ts => .next (hardwareReset { s with turns := ts })

/-- Place a row's bits so that the very next turn runs that instruction: a control word goes into PHASE and STEP and the
engine has the turn; a command is what the host writes to CMD at its turn. Assumption log 7. -/
def placeWord (nbits w : Nat) (s : State) : State :=
  if nbits ≤ 16 then
    { s with
      phase := cwPhase (BitVec.ofNat 10 w)
      stepIdx := cwStep (BitVec.ofNat 10 w)
      turns := .engine :: s.turns }
  else { s with turns := .host (.wr Reg.cmd.offset (BitVec.ofNat 32 w)) :: s.turns }

end Sys2Proof.Machine
end

