-- ==== Sys2Proof/Machine/Step.lean ====
section
/-! DEFINITION. The machine's step: one turn of one agent. -/

namespace Sys2Proof.Machine

/-- One step of the machine, a function of the state (00_scope.md R15, R18; 45_sequencer.md R230). -/
def step (s : State) : Host.Outcome State Fault Refusal := takeTurn s

/-- `s` with the instruction of a row's bits placed where `step` takes its next one. Assumption log 7. -/
def State.withFetchWord (s : State) (nbits w : Nat) : State := placeWord nbits w s

end Sys2Proof.Machine
end

