-- ==== Sys2Proof/Machine/Digest.lean ====
section
/-! DEFINITION. The whole function Digest(CFG, M) (44_chaining_output.md R216) and the trace of a run (45_sequencer.md R237,
30_encoding.md R106): what a run of the engine is claimed to compute and to do. -/

namespace Sys2Proof.Machine

/-- Byte q of a message given as a list; the value past its end is never used by `padByte`. -/
def listByte (m : List Byte) (q : Nat) : Byte := m.getD q 0x00#8

/-- The 80 steps of a block on the working registers (44_chaining_output.md R216, 43_step.md R185). -/
def compressBlock (cfg : Cfg) (w : Vector Word 16) (regs : Five) : Five :=
  (List.range 80).foldl (fun r i => roundRegs cfg w (roundSel i) i r) regs

/-- The chaining registers after block k of the message (44_chaining_output.md R216). -/
def digestBlock (cfg : Cfg) (m : Message) (h : Five) (k : Nat) : Five :=
  addLanes h (compressBlock cfg (permute (loadBlock (listByte m.val) m.len k)) h)

/-- Digest(CFG, M) (44_chaining_output.md R216), for a message within the bound of 40_padding.md R129: its type gives a longer one
no digest (91_not_in_source.md N6). -/
def digest (cfg : Cfg) (m : Message) : Five :=
  (List.range (numBlocks m.len.val)).foldl (digestBlock cfg m) cfg.iv

/-- The STEP micro-operation at a step index (30_encoding.md R94 through 42_round_functions.md R165). -/
def stepInstr (i : Nat) : Instr :=
  match roundSel i with
  | .r1 => .stepF1 (BitVec.ofNat 7 i)
  | .r2 => .stepF2 (BitVec.ofNat 7 i)
  | .r3 => .stepF3 (BitVec.ofNat 7 i)
  | .r4 => .stepF4 (BitVec.ofNat 7 i)
  | .r5 => .stepF5 (BitVec.ofNat 7 i)

/-- The 84 micro-operations of a block (45_sequencer.md R237). -/
def blockTrace : List Instr := [.ldblk, .perm, .seed] ++ (List.range 80).map stepInstr ++ [.accum]

/-- The micro-operations of a run of nb blocks, each with its block index (45_sequencer.md R237). -/
def runTrace (nb : Nat) : List (Nat × Instr) :=
  (List.range nb).flatMap (fun k => blockTrace.map (fun i => (k, i)))

/-- The mnemonic of an instruction, as spec/opcode_table.json spells it (30_encoding.md R91, R94). -/
def mnemonic : Instr → String
  | .nop => "NOP"
  | .start => "START"
  | .clrerr => "CLRERR"
  | .wait => "WAIT"
  | .ldblk => "LDBLK"
  | .perm => "PERM"
  | .seed => "SEED"
  | .stepF1 _ => "STEP.F1"
  | .stepF2 _ => "STEP.F2"
  | .stepF3 _ => "STEP.F3"
  | .stepF4 _ => "STEP.F4"
  | .stepF5 _ => "STEP.F5"
  | .accum => "ACCUM"

/-- The number after the mnemonic in a trace line: the step index of a STEP micro-operation, the block index of LDBLK and ACCUM
(30_encoding.md R106). -/
def traceIndex (blk : Nat) : Instr → Option Nat
  | .stepF1 i | .stepF2 i | .stepF3 i | .stepF4 i | .stepF5 i => some i.toNat
  | .ldblk | .accum => some blk
  | .nop | .start | .clrerr | .wait | .perm | .seed => none

/-- One line of an engine trace (30_encoding.md R106). -/
def traceLine (line : Nat × Instr) : String :=
  match traceIndex line.1 line.2 with
  | some n => mnemonic line.2 ++ " " ++ Nat.repr n
  | none => mnemonic line.2

end Sys2Proof.Machine
end

