-- ==== Sys2Proof/Machine/HostProgram.lean ====
section
/-! DEFINITION. Host programs: the pseudo-instructions and their expansions (30_encoding.md R105), what running a host program
does, with POLL as the loop that the value read ends, the protocol of the one operation (46_host_commands.md R261), and the
assembler text of an access (30_encoding.md R104). -/

namespace Sys2Proof.Machine

/-! ## Expansions -/

/-- The pseudo-instructions of host programs (30_encoding.md R105). -/
inductive Pseudo where
  | nop
  | start
  | clrerr
  | wrLen (n : Nat)
  | wrMsg (bytes : List Byte)
  | poll
  | rdDig
  | hash (bytes : List Byte)
deriving DecidableEq, Repr

/-- One line of an expanded host program: an access, or the loop "repeat `RD STATUS` until the value read has bit 1 (DONE) set"
(30_encoding.md R105). -/
inductive HostOp where
  | access (x : Access)
  | pollUntilDone
deriving DecidableEq, Repr

/-- `WRLEN n`: MLEN_LO gets n mod 2^32, then MLEN_HI gets n div 2^32 (30_encoding.md R105). For n ≥ 2^64, where n div 2^32 is no
32-bit value and the rule says nothing, MLEN_HI gets its low 32 bits: DESIGN CHOICE, assumption log 22. -/
def wrLenAccesses (n : Nat) : List Access :=
  [.wr Reg.mlenLo.offset (BitVec.ofNat 32 (n % 2 ^ 32)), .wr Reg.mlenHi.offset (BitVec.ofNat 32 (n / 2 ^ 32))]

/-- `WRMSG b0, ..., b(n−1)`: one WRB a byte, from address 0 (30_encoding.md R105). -/
def wrMsgAccesses (bytes : List Byte) : List Access :=
  bytes.zipIdx.map (fun p => .wrb p.2 p.1)

/-- `RDDIG`: the five DIGEST reads in order (30_encoding.md R105). -/
def rdDigAccesses : List Access :=
  [.rd (Reg.digest 0).offset, .rd (Reg.digest 1).offset, .rd (Reg.digest 2).offset,
   .rd (Reg.digest 3).offset, .rd (Reg.digest 4).offset]

/-- The expansions of 30_encoding.md R105; `HASH` is the protocol of 46_host_commands.md R261. -/
def Pseudo.expand : Pseudo → List HostOp
  | .nop => [.access (.wr Reg.cmd.offset 0#32)]
  | .start => [.access (.wr Reg.cmd.offset 1#32)]
  | .clrerr => [.access (.wr Reg.cmd.offset 2#32)]
  | .wrLen n => (wrLenAccesses n).map .access
  | .wrMsg bytes => (wrMsgAccesses bytes).map .access
  | .poll => [.pollUntilDone]
  | .rdDig => rdDigAccesses.map .access
  | .hash bytes =>
    (wrMsgAccesses bytes ++ wrLenAccesses bytes.length ++ [Access.wr Reg.cmd.offset 1#32]).map HostOp.access ++
      (.pollUntilDone :: rdDigAccesses.map .access)

/-! ## Running a host program -/

/-- Who moves next while a host program runs. -/
inductive Mover where
  | engine
  | host
deriving DecidableEq, Repr

/-- Has the value that the last read returned bit 1 (DONE) set? -/
def readShowsDone : List Reply → Bool
  | .word v :: _ => v.getLsbD 1
  | .byte _ :: _ => false
  | [] => false

/-- The access a line of a program makes at the host's turn: POLL reads STATUS. -/
def HostOp.toAccess : HostOp → Access
  | .access x => x
  | .pollUntilDone => .rd Reg.status.offset

/-- What is left of the program after the access of its first line, in the state `t` that the access gives: POLL stays until the
value read shows DONE (30_encoding.md R105). -/
def afterAccess (op : HostOp) (rest : List HostOp) (t : State) : List HostOp :=
  match op with
  | .access _ => rest
  | .pollUntilDone => if readShowsDone t.replies then rest else .pollUntilDone :: rest

/-- Run a host program against the engine, the movers in the order given (20_memory.md R71), each move one step of the machine; the
answer is the state and what is left of the program. A host with nothing left to do passes its turn. Assumption log 18. -/
def runProgram : List Mover → List HostOp → State → Host.Outcome (State × List HostOp) Fault Refusal
  | [], prog, s => .next (s, prog)
  | .host :: ms, [], s => runProgram ms [] s
  | .host :: ms, op :: rest, s =>
    match step { s with turns := [.host op.toAccess] } with
    | .next t => runProgram ms (afterAccess op rest t) t
    | .fault r => .fault r
    | .refused r => .refused r
  | .engine :: ms, prog, s =>
    match step { s with turns := [.engine] } with
    | .next t => runProgram ms prog t
    | .fault r => .fault r
    | .refused r => .refused r

/-! ## Assembler text -/

/-- The register's name in host programs (10_state.md R37). -/
def Reg.name : Reg → String
  | .cmd => "CMD"
  | .status => "STATUS"
  | .mlenLo => "MLEN_LO"
  | .mlenHi => "MLEN_HI"
  | .digest k => "DIGEST" ++ Nat.repr k.val

/-- The assembler line of an access, numbers in decimal; an offset outside the map has no register name and no line
(30_encoding.md R104). Assumption log 20. -/
def Access.text : Access → Option String
  | .wr off v => (regAt off).map (fun r => "WR " ++ r.name ++ ", " ++ Nat.repr v.toNat)
  | .rd off => (regAt off).map (fun r => "RD " ++ r.name)
  | .wrb addr v => some ("WRB " ++ Nat.repr addr ++ ", " ++ Nat.repr v.toNat)
  | .rdb addr => some ("RDB " ++ Nat.repr addr)

end Sys2Proof.Machine
end

