-- ==== Sys2Proof/Machine/Output.lean ====
section
/-! DEFINITION. The output formatter (44_chaining_output.md R212 to R214, 20_memory.md R64): the digest as one 160-bit value, as
20 bytes and as 40 characters. The engine delivers the five words; these are functions of them. -/

namespace Sys2Proof.Machine

/-- DIGEST = H[0] ‖ H[1] ‖ H[2] ‖ H[3] ‖ H[4], A the most significant (44_chaining_output.md R212). -/
def digestValue (h : Five) : BitVec 160 := h.a ++ h.b ++ h.c ++ h.d ++ h.e

/-- The five words in order. -/
def digestWords (h : Five) : List Word := [h.a, h.b, h.c, h.d, h.e]

/-- The bytes of a word, most significant first: byte m is v[31 − 8m : 24 − 8m] (44_chaining_output.md R213, 20_memory.md R64). -/
def wordBytes (v : Word) : List Byte := (List.range 4).map (fun m => v.extractLsb' (24 - 8 * m) 8)

/-- DB[4k + m] (44_chaining_output.md R213). -/
def digestBytes (h : Five) : List Byte := (digestWords h).flatMap wordBytes

/-- The hexadecimal digit of a nibble, ten to fifteen as lowercase letters (44_chaining_output.md R214). -/
def hexDigit (n : BitVec 4) : Char :=
  if n.toNat < 10 then Char.ofNat (48 + n.toNat) else Char.ofNat (87 + n.toNat)

/-- HEX8(v): exactly eight characters h7 ... h0, hq the digit of v[4q + 3 : 4q], leading zeros kept
(44_chaining_output.md R214). -/
def hex8 (v : Word) : List Char := (List.range 8).map (fun j => hexDigit (v.extractLsb' (4 * (7 - j)) 4))

/-- The text digest, as characters (44_chaining_output.md R214). -/
def digestText (h : Five) : List Char := (digestWords h).flatMap hex8

end Sys2Proof.Machine
end

