-- ==== Sys2Proof/Safety.lean ====
section
/-! DEFINITION. What counts as a legal state and a safe run, in the terms the claims use: the invariants of 10_state.md R50, the
condition that a turn is one the spec gives a meaning, and what a run's message is. -/

namespace Sys2Proof.Machine

/-- The invariants of 10_state.md R50, with the canonical form of the message buffer. (R50 (5), that every word register is below
2^32, holds by the type `Word`.) -/
structure Legal (s : State) : Prop where
  /-- R50 (1): PHASE is in 0..5 -/
  phase_le : s.phase.toNat ≤ 5
  /-- R50 (2): if PHASE = ROUND then 0 ≤ STEP ≤ 79 -/
  step_le : s.phase = Phase.round → s.stepIdx.toNat ≤ 79
  /-- R50 (3): if PHASE is not IDLE then 0 ≤ BLK < NB -/
  blk_lt : s.phase ≠ Phase.idle → s.blk.toNat < numBlocks s.mlen.toNat
  /-- R50 (3): if PHASE is not IDLE then MLEN ≤ CFG.MSG_BYTES -/
  mlen_le : s.phase ≠ Phase.idle → s.mlen.toNat ≤ s.cfg.msgBytes.val
  /-- R50 (4): DONE = 1 implies PHASE = IDLE -/
  done_idle : s.done = true → s.phase = Phase.idle
  /-- the message buffer keeps its canonical form -/
  msg_wf : Memory.wf s.msg = true
  /-- and lists addresses of the buffer only (10_state.md R32) -/
  msg_within : Memory.within s.cfg.msgBytes.val s.msg = true

/-- From the end of PERM to the end of ACCUM, W holds the ρ-permuted words of X (41_block_words.md R144,
70_reset_and_hazards.md R321). -/
def ScheduleLoaded (s : State) : Prop :=
  s.phase = Phase.seed ∨ s.phase = Phase.round ∨ s.phase = Phase.accum → s.w = permute s.x

/-- The state of the engine alone: the model's own three fields blanked, so that two states with the same engine are equal
here (10_state.md R47: the engine has no other state). -/
def State.engineOnly (s : State) : State := { s with turns := [], replies := [], draws := 0 }

/-- The part of the engine's state that a run depends on: the error flags blanked too (10_state.md R36: "They never influence a
micro-operation, the digest, BUSY or DONE"). -/
def State.runOnly (s : State) : State :=
  { s with turns := [], replies := [], draws := 0, elen := false, ebusy := false, ecmd := false }

/-- The coming turn is one the spec gives a meaning: a host access is inside the register map or the buffer
(20_memory.md R66). -/
def State.nextTurnInMap (s : State) : Bool :=
  match s.turns with
  | .host acc :: _ => acc.inMap s.cfg.msgBytes.val
  | [] | .engine :: _ | .reset :: _ => true

/-- A turn that may fall inside a run: the engine's, or a host access inside the map; not a reset (45_sequencer.md R238). -/
def Turn.interleaves (cap : Nat) : Turn → Bool
  | .engine => true
  | .host acc => acc.inMap cap
  | .reset => false

/-- The engine is due: no turn is listed, or the first listed one is the engine's. -/
def State.engineDue (s : State) : Prop := s.turns = [] ∨ ∃ ts, s.turns = .engine :: ts

/-- MSG[0 .. MLEN−1] = M, every byte written (45_sequencer.md R238, 70_reset_and_hazards.md R313). -/
def State.MessageIs (s : State) (m : Message) : Prop :=
  s.mlen.toNat = m.len.val ∧ ∀ q v, m.val[q]? = some v → Memory.read s.msg q = some v

/-- Two states in which the sequencer stands alike: same PHASE, STEP, BLK and MLEN (45_sequencer.md R241). -/
def State.sameControl (s t : State) : Prop :=
  s.phase = t.phase ∧ s.stepIdx = t.stepIdx ∧ s.blk = t.blk ∧ s.mlen = t.mlen

/-- The next states of an answer, changed by `f`. -/
def mapNext (f : State → State) : Result → Result
  | .next s => .next (f s)
  | .fault r => .fault r
  | .refused r => .refused r

end Sys2Proof.Machine
end

