-- ==== Sys2Proof/Certificates/Slice0/Obligations.lean ====
section
/-! DEFINITION. The statements about the machine, each from the spec's numbered rules. A statement over every `State` is a
statement over every configuration, since a State carries its `cfg` (00_scope.md R7; assumption log 1). The premise
`s.lawful = true` says that s meets the invariants (1) to (4) of 10_state.md R50, which every step keeps (StepKeepsTheLegalStates);
a state that breaks them has no behaviour (BrokenInvariantsHaveNoBehaviour). An idle state
is lawful whatever else it holds. -/

open Sys2Proof Sys2Proof.Machine

/-! ## Host commands -/

/-- 46_host_commands.md R251: NOP, and the access that issues it, changes nothing, in every lawful state. -/
def Obligations.NopChangesNothing : Prop :=
  ∀ s : State, s.lawful = true → exec .nop s = .next s ∧ hostAccess (.wr 0x00 0x00000000#32) s = .next s

/-- 46_host_commands.md R252: START checks BUSY, then the length, else it is accepted; nothing else changes. -/
def Obligations.StartChecksThenStartsARun : Prop :=
  ∀ s : State, hostAccess (.wr 0x00 0x00000001#32) s = exec .start s ∧
    (s.lawful = true → exec .start s = .next
      (if s.phase ≠ 0#3 then { s with ebusy := true }
       else if s.cfg.msgBytes.val < s.mlen.toNat then { s with elen := true }
       else { s with h := s.cfg.iv, blk := 0#56, done := false, phase := 1#3 }))

/-- 46_host_commands.md R253: CLRERR clears the three error flags and nothing else, in every lawful state. -/
def Obligations.ClrerrClearsTheErrorFlags : Prop :=
  ∀ s : State, hostAccess (.wr 0x00 0x00000002#32) s = exec .clrerr s ∧
    (s.lawful = true → exec .clrerr s = .next { s with elen := false, ebusy := false, ecmd := false })

/-- 60_exceptions.md R283, R280, 46_host_commands.md R254 to R256: the checks of a write to CMD in their order, a reserved value setting ECMD and
nothing else; one access raises at most one flag; an engine step raises nothing. -/
def Obligations.ChecksGoInOrderAndRaiseAtMostOneFlag : Prop :=
  (∀ (s : State) (v : Word), s.lawful = true → hostAccess (.wr 0x00 v) s = .next
    (if v = 3#32 ∨ v.extractLsb' 2 30 ≠ 0#30 then { s with ecmd := true }
     else if v = 1#32 ∧ s.phase ≠ 0#3 then { s with ebusy := true }
     else if v = 1#32 ∧ s.cfg.msgBytes.val < s.mlen.toNat then { s with elen := true }
     else if v = 1#32 then { s with h := s.cfg.iv, blk := 0#56, done := false, phase := 1#3 }
     else if v = 2#32 then { s with elen := false, ebusy := false, ecmd := false }
     else s)) ∧
  (∀ (s t : State) (acc : Access), hostAccess acc s = .next t →
    (!s.elen && t.elen).toNat + (!s.ebusy && t.ebusy).toNat + (!s.ecmd && t.ecmd).toNat ≤ 1) ∧
  (∀ (s t : State) (off : Nat) (v : Word), off = 0x08 ∨ off = 0x0C → hostAccess (.wr off v) s = .next t →
    t.elen = s.elen ∧ t.ecmd = s.ecmd ∧ (t.ebusy = true ↔ s.ebusy = true ∨ s.phase ≠ 0#3)) ∧
  (∀ (s t : State) (addr : Nat) (v : Byte), hostAccess (.wrb addr v) s = .next t →
    t.elen = s.elen ∧ t.ecmd = s.ecmd ∧ (t.ebusy = true ↔ s.ebusy = true ∨ s.phase ≠ 0#3)) ∧
  (∀ s t : State, engineTurn s = .next t → t.elen = s.elen ∧ t.ebusy = s.ebusy ∧ t.ecmd = s.ecmd)

/-! ## Register and message accesses -/

/-- 46_host_commands.md R255: a write of MLEN_LO or MLEN_HI stores its half when idle, else it is discarded and EBUSY is set. -/
def Obligations.MlenWriteStoresItsHalfOrRaisesEbusy : Prop :=
  ∀ (s : State) (v : Word), s.lawful = true →
    hostAccess (.wr 0x08 v) s = .next
      (if s.phase ≠ 0#3 then { s with ebusy := true } else { s with mlen := s.mlen.extractLsb' 32 32 ++ v }) ∧
    hostAccess (.wr 0x0C v) s = .next
      (if s.phase ≠ 0#3 then { s with ebusy := true } else { s with mlen := v ++ s.mlen.extractLsb' 0 32 })

/-- 10_state.md R39: the two halves written in either order give MLEN_HI · 2^32 + MLEN_LO, and each reads back. -/
def Obligations.MlenHalvesComposeInEitherOrder : Prop :=
  ∀ (s : State) (hi lo : Word), s.phase = 0#3 →
    ∃ t u t' u' : State,
      hostAccess (.wr 0x08 lo) s = .next t ∧ hostAccess (.wr 0x0C hi) t = .next u ∧
      hostAccess (.wr 0x0C hi) s = .next t' ∧ hostAccess (.wr 0x08 lo) t' = .next u' ∧
      u = u' ∧ u.mlen.toNat = hi.toNat * 2 ^ 32 + lo.toNat ∧
      hostAccess (.rd 0x08) u = .next { u with replies := .word lo :: u.replies } ∧
      hostAccess (.rd 0x0C) u = .next { u with replies := .word hi :: u.replies }

/-- 46_host_commands.md R256: a message byte is stored when idle, at its address and nowhere else; during a run it is discarded
and EBUSY is set. -/
def Obligations.MessageWriteStoresOneByteOrRaisesEbusy : Prop :=
  ∀ (s : State) (addr : Nat) (v : Byte), s.lawful = true → addr < s.cfg.msgBytes.val →
    (s.phase = 0#3 → ∃ t : State, hostAccess (.wrb addr v) s = .next t ∧
      Memory.read t.msg addr = some v ∧ (∀ a, a ≠ addr → Memory.read t.msg a = Memory.read s.msg a) ∧
      { t with msg := s.msg } = s) ∧
    (s.phase ≠ 0#3 → hostAccess (.wrb addr v) s = .next { s with ebusy := true })

/-- 46_host_commands.md R257: STATUS reads as BUSY + 2·DONE + 4·ELEN + 8·EBUSY + 16·ECMD, without a side effect, and
never with BUSY and DONE both set. -/
def Obligations.StatusReadsItsFiveFlags : Prop :=
  ∀ s : State, s.lawful = true → ∃ v : Word,
    hostAccess (.rd 0x04) s = .next { s with replies := .word v :: s.replies } ∧
    v.toNat = (if s.phase ≠ 0#3 then 1 else 0) + 2 * s.done.toNat + 4 * s.elen.toNat + 8 * s.ebusy.toNat +
      16 * s.ecmd.toNat ∧
    ¬ (v.getLsbD 0 = true ∧ v.getLsbD 1 = true)

/-- 46_host_commands.md R258: DIGESTk reads as H[k] when DONE = 1; otherwise some 32-bit value comes back, and the engine's state
is as before either way. Which value, and the counter of draws, is the model's own matter (assumption logs 4 and 5). -/
def Obligations.DigestReadsTheChainingRegisterWhenDone : Prop :=
  ∀ (s : State) (k : Fin 5), s.lawful = true →
    (s.done = true → hostAccess (.rd (0x10 + 4 * k.val)) s =
      .next { s with replies := .word ([s.h.a, s.h.b, s.h.c, s.h.d, s.h.e].get k) :: s.replies }) ∧
    (s.done = false → ∃ (v : Word) (t : State), hostAccess (.rd (0x10 + 4 * k.val)) s = .next t ∧
      t.replies = .word v :: s.replies ∧ t.engineOnly = s.engineOnly ∧ t.turns = s.turns)

/-- 46_host_commands.md R259: CMD reads as 0, MLEN_LO and MLEN_HI as their halves, a message byte as written, or as some byte
when never written; all in every lawful state and without a side effect. -/
def Obligations.OtherReadsReturnWhatIsStored : Prop :=
  ∀ s : State, s.lawful = true →
    hostAccess (.rd 0x00) s = .next { s with replies := .word 0x00000000#32 :: s.replies } ∧
    hostAccess (.rd 0x08) s = .next { s with replies := .word (s.mlen.extractLsb' 0 32) :: s.replies } ∧
    hostAccess (.rd 0x0C) s = .next { s with replies := .word (s.mlen.extractLsb' 32 32) :: s.replies } ∧
    ∀ addr, addr < s.cfg.msgBytes.val →
      (∀ v, Memory.read s.msg addr = some v →
        hostAccess (.rdb addr) s = .next { s with replies := .byte v :: s.replies }) ∧
      (Memory.read s.msg addr = none → ∃ (v : Byte) (t : State), hostAccess (.rdb addr) s = .next t ∧
        t.replies = .byte v :: s.replies ∧ t.engineOnly = s.engineOnly ∧ t.turns = s.turns)

/-- 46_host_commands.md R260: a write to STATUS or DIGEST0..4 changes nothing, in every lawful state. -/
def Obligations.WritesToReadOnlyRegistersAreIgnored : Prop :=
  ∀ (s : State) (v : Word) (off : Nat), s.lawful = true → off ∈ [0x04, 0x10, 0x14, 0x18, 0x1C, 0x20] →
    hostAccess (.wr off v) s = .next s

/-- 20_memory.md R70: a read of any register or message byte changes no state of the engine; it takes no turn but its own. -/
def Obligations.ReadsHaveNoSideEffect : Prop :=
  ∀ s t : State,
    (∀ off, hostAccess (.rd off) s = .next t → t.engineOnly = s.engineOnly ∧ t.turns = s.turns) ∧
    (∀ addr, hostAccess (.rdb addr) s = .next t → t.engineOnly = s.engineOnly ∧ t.turns = s.turns)

/-- 20_memory.md R66, 30_encoding.md R102: exactly the accesses outside the register map and the buffer are refused; every other
access completes. The refusal is the model's word for "a model has no host step for it" (assumption log 13). -/
def Obligations.OnlyAccessesOutsideTheEngineAreRefused : Prop :=
  ∀ (s : State) (acc : Access), s.lawful = true →
    (acc.inMap s.cfg.msgBytes.val = true → ∃ t, hostAccess acc s = .next t) ∧
    (acc.inMap s.cfg.msgBytes.val = false → hostAccess acc s = .refused .outsideEngine)

/-- 30_encoding.md R104, 46_host_commands.md R250: the triple of every access inside the map gives that access back, and no other
triple is an access. -/
def Obligations.AccessTriplesRoundTrip : Prop :=
  ∀ (cap : Nat) (acc : Access),
    (acc.inMap cap = true → accessOf cap acc.triple = some acc) ∧
    (∀ tr : Triple, accessOf cap tr = some acc → acc.triple = tr ∧ acc.inMap cap = true)

/-! ## Reset -/

/-- 10_state.md R49, the values it states: IDLE, DONE and the error flags 0, MLEN 0, no message byte written; then STATUS reads
0. -/
def Obligations.ResetLeavesTheStatedValues : Prop :=
  State.reset.phase = 0#3 ∧ State.reset.done = false ∧ State.reset.elen = false ∧ State.reset.ebusy = false ∧
  State.reset.ecmd = false ∧ State.reset.mlen = 0#64 ∧ (∀ a, Memory.read State.reset.msg a = none) ∧
  State.reset.status = 0x00000000#32

/-- 70_reset_and_hazards.md R310, R312: a reset in any state is one step after which the engine is as R49 says, with the ROMs
untouched. Two clauses are the model's choice: that the turns that follow it remain (assumption log 15), and that a reset has this
effect in a state that breaks 10_state.md R50 too (assumption log 21), where R50 gives no behaviour and R310 says "any state". -/
def Obligations.ResetInAnyStateIsOneStep : Prop :=
  ∀ (s : State) (ts : List Turn), s.turns = .reset :: ts →
    ∃ t : State, step s = .next t ∧ t.phase = 0#3 ∧ t.done = false ∧ t.elen = false ∧ t.ebusy = false ∧ t.ecmd = false ∧
      t.mlen = 0#64 ∧ (∀ a, Memory.read t.msg a = none) ∧ t.cfg = s.cfg ∧ t.turns = ts ∧ Legal t

/-! ## Micro-operations -/

/-- 45_sequencer.md R231: in IDLE the engine changes no state. That its turn is a step which answers the same state, rather than no
step, is the model's choice (assumption log 8). -/
def Obligations.WaitInIdleChangesNothing : Prop :=
  ∀ s : State, s.phase = 0#3 → exec .wait s = .next s ∧ (s.turns = [] → step s = .next s)

/-- 41_block_words.md R141, 45_sequencer.md R232: LDBLK loads the sixteen big-endian words of padded block BLK and goes to PERM;
nothing else of the engine changes. -/
def Obligations.LdblkLoadsTheWordsOfTheBlock : Prop :=
  ∀ (s : State) (n : MsgLen), s.lawful = true → s.phase = 1#3 → n.val = s.mlen.toNat →
    ∃ t : State, exec .ldblk s = .next t ∧
      (∀ j : Fin 16, (t.x.get j).toNat =
        (padByte s.messageByte n (64 * s.blk.toNat + 4 * j.val)).toNat * 2 ^ 24 +
        (padByte s.messageByte n (64 * s.blk.toNat + 4 * j.val + 1)).toNat * 2 ^ 16 +
        (padByte s.messageByte n (64 * s.blk.toNat + 4 * j.val + 2)).toNat * 2 ^ 8 +
        (padByte s.messageByte n (64 * s.blk.toNat + 4 * j.val + 3)).toNat) ∧
      t.engineOnly = ({ s with x := t.x, phase := 2#3 } : State).engineOnly ∧
      t.turns = s.turns ∧ t.replies = s.replies

/-- 41_block_words.md R140, R141, in bits: when MSG[0..MLEN−1] = M was written, X[j] spells bits 512·BLK + 32j to
512·BLK + 32j + 31 of the padded sequence of M. -/
def Obligations.LdblkWordsSpellThePaddedMessage : Prop :=
  ∀ (s : State) (m : Message), s.lawful = true → s.phase = 1#3 → s.MessageIs m →
    ∃ t : State, exec .ldblk s = .next t ∧
      ∀ j : Fin 16, (t.x.get j).toNat = uint (((padBits m).drop (512 * s.blk.toNat + 32 * j.val)).take 32)

/-- 41_block_words.md R143, 45_sequencer.md R233: PERM moves the words through the ρ ROM into W and goes to SEED. -/
def Obligations.PermPermutesIntoW : Prop :=
  ∀ s : State, s.lawful = true → s.phase = 2#3 →
    exec .perm s = .next { s with
      w := #v[s.x[7], s.x[4], s.x[13], s.x[1], s.x[10], s.x[6], s.x[15], s.x[3],
              s.x[12], s.x[0], s.x[9], s.x[5], s.x[2], s.x[14], s.x[11], s.x[8]]
      phase := 3#3 }

/-- 41_block_words.md R145, 45_sequencer.md R234: SEED copies H into a..e, clears STEP and goes to ROUND. -/
def Obligations.SeedCopiesTheChainingRegisters : Prop :=
  ∀ s : State, s.lawful = true → s.phase = 3#3 →
    exec .seed s = .next { s with
      work := { a := s.h.a, b := s.h.b, c := s.h.c, d := s.h.d, e := s.h.e }
      stepIdx := 0#7
      phase := 4#3 }

/-- 43_step.md R186: a step of round 1, with the row 0 of the tables, and STEP moves on. -/
def Obligations.StepF1Result : Prop :=
  ∀ (s : State) (i : BitVec 7), s.lawful = true → s.phase = 4#3 → s.stepIdx = i → i.toNat ≤ 16 →
    exec (.stepF1 i) s = .next { s with
      work :=
        { a := s.work.e
          b := ((s.work.a + (s.work.b ^^^ s.work.c ^^^ s.work.d) + s.w.get (piRom i.toNat) +
                (s.cfg.k.get 0).get (kCol i.toNat)) <<< ((s.cfg.shifts.get 0).get (shiftCol i.toNat)).val) + s.work.e
          c := s.work.b
          d := s.work.c <<< 10
          e := s.work.d }
      stepIdx := i + 1#7 }

/-- 43_step.md R187: a step of round 2, with the row 1 of the tables, and STEP moves on. -/
def Obligations.StepF2Result : Prop :=
  ∀ (s : State) (i : BitVec 7), s.lawful = true → s.phase = 4#3 → s.stepIdx = i → 17 ≤ i.toNat → i.toNat ≤ 32 →
    exec (.stepF2 i) s = .next { s with
      work :=
        { a := s.work.e
          b := ((s.work.a + ((s.work.b &&& s.work.c) ||| (~~~s.work.b &&& s.work.d)) + s.w.get (piRom i.toNat) +
                (s.cfg.k.get 1).get (kCol i.toNat)) <<< ((s.cfg.shifts.get 1).get (shiftCol i.toNat)).val) + s.work.e
          c := s.work.b
          d := s.work.c <<< 10
          e := s.work.d }
      stepIdx := i + 1#7 }

/-- 43_step.md R188: a step of round 3, with the row 2 of the tables, and STEP moves on. -/
def Obligations.StepF3Result : Prop :=
  ∀ (s : State) (i : BitVec 7), s.lawful = true → s.phase = 4#3 → s.stepIdx = i → 33 ≤ i.toNat → i.toNat ≤ 47 →
    exec (.stepF3 i) s = .next { s with
      work :=
        { a := s.work.e
          b := ((s.work.a + ((s.work.b ||| ~~~s.work.c) ^^^ s.work.d) + s.w.get (piRom i.toNat) +
                (s.cfg.k.get 2).get (kCol i.toNat)) <<< ((s.cfg.shifts.get 2).get (shiftCol i.toNat)).val) + s.work.e
          c := s.work.b
          d := s.work.c <<< 10
          e := s.work.d }
      stepIdx := i + 1#7 }

/-- 43_step.md R189: a step of round 4, with the row 3 of the tables, and STEP moves on. -/
def Obligations.StepF4Result : Prop :=
  ∀ (s : State) (i : BitVec 7), s.lawful = true → s.phase = 4#3 → s.stepIdx = i → 48 ≤ i.toNat → i.toNat ≤ 63 →
    exec (.stepF4 i) s = .next { s with
      work :=
        { a := s.work.e
          b := ((s.work.a + ((s.work.b &&& s.work.d) ||| (s.work.c &&& ~~~s.work.d)) + s.w.get (piRom i.toNat) +
                (s.cfg.k.get 3).get (kCol i.toNat)) <<< ((s.cfg.shifts.get 3).get (shiftCol i.toNat)).val) + s.work.e
          c := s.work.b
          d := s.work.c <<< 10
          e := s.work.d }
      stepIdx := i + 1#7 }

/-- 43_step.md R190: a step of round 5, with the row 4 of the tables; STEP moves on, and the step at 79, the last of the block, is
followed by ACCUM with STEP left at 79 (45_sequencer.md R235). -/
def Obligations.StepF5Result : Prop :=
  ∀ (s : State) (i : BitVec 7), s.lawful = true → s.phase = 4#3 → s.stepIdx = i → 64 ≤ i.toNat → i.toNat ≤ 79 →
    exec (.stepF5 i) s = .next { s with
      work :=
        { a := s.work.e
          b := ((s.work.a + (s.work.b ^^^ (s.work.c ||| ~~~s.work.d)) + s.w.get (piRom i.toNat) +
                (s.cfg.k.get 4).get (kCol i.toNat)) <<< ((s.cfg.shifts.get 4).get (shiftCol i.toNat)).val) + s.work.e
          c := s.work.b
          d := s.work.c <<< 10
          e := s.work.d }
      stepIdx := if i.toNat < 79 then i + 1#7 else i
      phase := if i.toNat < 79 then 4#3 else 5#3 }

/-- 44_chaining_output.md R210 with 45_sequencer.md R236: ACCUM adds each working register into its chaining register mod 2^32
and goes to the next block, or ends the run with DONE after the last one; nothing else changes. -/
def Obligations.AccumAddsAndMovesOn : Prop :=
  ∀ s : State, s.lawful = true → s.phase = 5#3 →
    ∃ t : State, exec .accum s = .next t ∧
      t.h.a.toNat = (s.h.a.toNat + s.work.a.toNat) % 2 ^ 32 ∧
      t.h.b.toNat = (s.h.b.toNat + s.work.b.toNat) % 2 ^ 32 ∧
      t.h.c.toNat = (s.h.c.toNat + s.work.c.toNat) % 2 ^ 32 ∧
      t.h.d.toNat = (s.h.d.toNat + s.work.d.toNat) % 2 ^ 32 ∧
      t.h.e.toNat = (s.h.e.toNat + s.work.e.toNat) % 2 ^ 32 ∧
      (s.blk.toNat + 1 < numBlocks s.mlen.toNat →
        t.blk.toNat = s.blk.toNat + 1 ∧ t.phase = 1#3 ∧ t.done = false) ∧
      (s.blk.toNat + 1 = numBlocks s.mlen.toNat → t.blk = s.blk ∧ t.phase = 0#3 ∧ t.done = true) ∧
      { t with h := s.h, blk := s.blk, phase := s.phase, done := s.done } = s

/-- 45_sequencer.md R235 with 43_step.md R185: the engine's turn in the ROUND phase performs the step of the round that the
selector names and moves STEP on, or goes to ACCUM at 79; nothing else changes. -/
def Obligations.RoundPhaseRunsTheSelectedStep : Prop :=
  ∀ s : State, s.lawful = true → s.phase = 4#3 →
    ∃ t : State, engineTurn s = .next t ∧ engineTurn s = exec (stepInstr s.stepIdx.toNat) s ∧
      t.work.a = s.work.e ∧
      t.work.b = ((s.work.a + roundFn (roundSel s.stepIdx.toNat) s.work.b s.work.c s.work.d + s.w.get (piRom s.stepIdx.toNat) +
          (s.cfg.k.get (roundSel s.stepIdx.toNat).row).get (kCol s.stepIdx.toNat)) <<<
          ((s.cfg.shifts.get (roundSel s.stepIdx.toNat).row).get (shiftCol s.stepIdx.toNat)).val) + s.work.e ∧
      t.work.c = s.work.b ∧ t.work.d = s.work.c <<< 10 ∧ t.work.e = s.work.d ∧
      (s.stepIdx.toNat < 79 → t.stepIdx.toNat = s.stepIdx.toNat + 1 ∧ t.phase = 4#3) ∧
      (s.stepIdx.toNat = 79 → t.stepIdx = s.stepIdx ∧ t.phase = 5#3) ∧
      { t with work := s.work, stepIdx := s.stepIdx, phase := s.phase } = s

/-- 45_sequencer.md R230: a micro-operation runs in exactly the states whose control word selects it. The fault elsewhere is the
model's word for "at most one step" (assumption log 10). -/
def Obligations.MicroOperationRunsOnlyWhenSelected : Prop :=
  ∀ (i : Instr) (s : State), i.byHost = false →
    (decodeControl (controlWordOf s.phase s.stepIdx) ≠ .instr i → exec i s = .fault .notSelected) ∧
    (∀ t, exec i s = .next t → decodeControl (controlWordOf s.phase s.stepIdx) = .instr i)

/-- 10_state.md R50, 60_exceptions.md R287: `lawful` is R50 (1) to (4), and a state that breaks one of them has no behaviour: no
instruction, no turn of the engine and no host access answers a next state. 30_encoding.md R100 of the states that break (1) or (2):
their control word selects nothing. The refusal and the faults are the model's words for "no behaviour" and "no step" (assumption
logs 10, 11 and 12). -/
def Obligations.BrokenInvariantsHaveNoBehaviour : Prop :=
  ∀ s : State,
    (s.lawful = true ↔ s.phase.toNat ≤ 5 ∧ (s.phase = 4#3 → s.stepIdx.toNat ≤ 79) ∧
      (s.phase ≠ 0#3 → s.blk.toNat < numBlocks s.mlen.toNat ∧ s.mlen.toNat ≤ s.cfg.msgBytes.val) ∧
      (s.done = true → s.phase = 0#3)) ∧
    (s.lawful = false → (∀ (i : Instr) (t : State), exec i s ≠ .next t) ∧ (∀ t : State, engineTurn s ≠ .next t) ∧
      ∀ acc : Access, hostAccess acc s = .refused .outsideInvariants) ∧
    (s.phase = 6#3 ∨ s.phase = 7#3 ∨ (s.phase = 4#3 ∧ 80 ≤ s.stepIdx.toNat) →
      engineTurn s = .fault .reservedControlWord ∧
      ∀ i : Instr, i.byHost = false → exec i s = .fault .notSelected)

/-! ## The step -/

/-- 45_sequencer.md R230: when the engine is due and its control word decodes to an instruction, the step is exec of it, after
the turn is taken off the list. -/
def Obligations.EngineStepRunsTheDecodedMicroOperation : Prop :=
  ∀ (s : State) (i : Instr), decodeControl (controlWordOf s.phase s.stepIdx) = .instr i →
    (s.turns = [] → step s = exec i s) ∧
    (∀ ts, s.turns = .engine :: ts → step s = exec i { s with turns := ts })

/-- 10_state.md R38: when the coming turn is a host write to CMD whose value decodes to a command, the step is exec of it, after
the turn is taken off the list. -/
def Obligations.CommandStepRunsTheDecodedCommand : Prop :=
  ∀ (s : State) (v : Word) (i : Instr) (ts : List Turn), s.turns = .host (.wr 0x00 v) :: ts →
    decodeCommand v = .instr i → step s = exec i { s with turns := ts }

/-! ## Encoding -/

/-- 30_encoding.md R91, R94: the decoder gives every well-formed instruction back from its word. -/
def Obligations.DecodeOfEncodeIsTheInstruction : Prop :=
  ∀ i : Instr, i.wellFormed = true → decode (encode i) = .instr i

/-- 30_encoding.md R91, R92, R94: what the decoder accepts is well formed, and its word is the encoder's up to the bits that the
format ignores. -/
def Obligations.EncodeOfDecodeIsTheWord : Prop :=
  (∀ (w : BitVec 32) (i : Instr), decodeCommand w = .instr i →
    i.wellFormed = true ∧ i.byHost = true ∧ encode i = .command w) ∧
  (∀ (cw : BitVec 10) (i : Instr), decodeControl cw = .instr i →
    i.wellFormed = true ∧ i.byHost = false ∧ ∃ cw', encode i = .control cw' ∧ cwPhase cw' = cwPhase cw ∧
      (cwPhase cw = 4#3 → cw' = cw))

/-- 30_encoding.md R94, R100, and the rows of spec/opcode_table.json with their patterns: every control word matches at most one
row, the one the decoder gives, and a reserved one none. -/
def Obligations.EveryControlWordMatchesAtMostOneRow : Prop :=
  ∀ cw : BitVec 10, rowMatches cw = match decodeControl cw with
    | .instr i => [i]
    | .reserved _ => []

/-- 30_encoding.md R91, R92, R94: sample words of every family, written out from the spec's encodings. -/
def Obligations.SampleWordsDecode : Prop :=
  decode (.command 0b00000000000000000000000000000000#32) = .instr .nop ∧
  decode (.command 0b00000000000000000000000000000001#32) = .instr .start ∧
  decode (.command 0b00000000000000000000000000000010#32) = .instr .clrerr ∧
  decode (.command 0b00000000000000000000000000000011#32) = .reserved .command ∧
  decode (.command 0b10000000000000000000000000000001#32) = .reserved .command ∧
  decode (.control 0b0001010101#10) = .instr .wait ∧
  decode (.control 0b0010000000#10) = .instr .ldblk ∧
  decode (.control 0b0101111111#10) = .instr .perm ∧
  decode (.control 0b0110000001#10) = .instr .seed ∧
  decode (.control 0b1000010000#10) = .instr (.stepF1 16#7) ∧
  decode (.control 0b1000100000#10) = .instr (.stepF2 32#7) ∧
  decode (.control 0b1000100001#10) = .instr (.stepF3 33#7) ∧
  decode (.control 0b1000110000#10) = .instr (.stepF4 48#7) ∧
  decode (.control 0b1001001111#10) = .instr (.stepF5 79#7) ∧
  decode (.control 0b1001010000#10) = .reserved .step ∧
  decode (.control 0b1011001111#10) = .instr .accum ∧
  decode (.control 0b1100000000#10) = .reserved .phase

/-- 30_encoding.md R97, R95: how the selectors come out of the bits of STEP; the pair (scol, kcol) is different at every step. -/
def Obligations.SelectorsComeFromTheBitsOfStep : Prop :=
  ∀ i : BitVec 7, i.toNat ≤ 79 →
    (selectors i.toNat).scol.val = (i.extractLsb' 0 4).toNat ∧
    (selectors i.toNat).wsel.val = (9 * (i.extractLsb' 0 4).toNat + 5) % 16 ∧
    (selectors i.toNat).xsel = rhoRom.get (selectors i.toNat).wsel ∧
    (selectors i.toNat).kcol.val = i.toNat % 5 ∧
    (selectors i.toNat).r.val =
      (if 16 < i.toNat then 1 else 0) + (if 32 < i.toNat then 1 else 0) + (if 47 < i.toNat then 1 else 0) +
        (if 63 < i.toNat then 1 else 0) ∧
    (∀ j : BitVec 7, j.toNat ≤ 79 → (selectors j.toNat).scol = (selectors i.toNat).scol →
      (selectors j.toNat).kcol = (selectors i.toNat).kcol → j = i)

/-! ## Datapath -/

/-- 42_round_functions.md R160 to R164: each round function is its formula, and bit t of it is its truth table at the bits t of
b, c, d, listed for 000, 001, ..., 111. -/
def Obligations.RoundFunctionsFollowTheirTruthTables : Prop :=
  ∀ (b c d : Word) (t : Nat), t < 32 →
    roundFn .r1 b c d = b ^^^ c ^^^ d ∧ roundFn .r2 b c d = (b &&& c) ||| (~~~b &&& d) ∧
    roundFn .r3 b c d = (b ||| ~~~c) ^^^ d ∧ roundFn .r4 b c d = (b &&& d) ||| (c &&& ~~~d) ∧
    roundFn .r5 b c d = b ^^^ (c ||| ~~~d) ∧
    let row := 4 * (b.getLsbD t).toNat + 2 * (c.getLsbD t).toNat + (d.getLsbD t).toNat
    ((roundFn .r1 b c d).getLsbD t).toNat = [0, 1, 1, 0, 1, 0, 0, 1].getD row 0 ∧
    ((roundFn .r2 b c d).getLsbD t).toNat = [0, 1, 0, 1, 0, 0, 1, 1].getD row 0 ∧
    ((roundFn .r3 b c d).getLsbD t).toNat = [1, 0, 0, 1, 1, 0, 1, 0].getD row 0 ∧
    ((roundFn .r4 b c d).getLsbD t).toNat = [0, 0, 1, 0, 0, 1, 1, 1].getD row 0 ∧
    ((roundFn .r5 b c d).getLsbD t).toNat = [1, 0, 1, 1, 0, 1, 0, 0].getD row 0

/-- 43_step.md R183: SHL32(x, s) = (x · 2^s) mod 2^32; bit t is x[t − s] for t ≥ s and 0 below; a shift by 0 and by 31; and the
same bits come out when a sum is reduced mod 2^32 before the shift or after it. -/
def Obligations.ShifterIsAPlainLeftShift : Prop :=
  ∀ (x : Word) (s : Fin 32),
    (shl32 x s).toNat = x.toNat * 2 ^ s.val % 2 ^ 32 ∧
    (∀ t, t < 32 → (shl32 x s).getLsbD t = (decide (s.val ≤ t) && x.getLsbD (t - s.val))) ∧
    shl32 x 0 = x ∧ shl32 x 31 = (if x.toNat % 2 = 1 then 0x80000000#32 else 0x00000000#32) ∧
    (∀ n : Nat, n * 2 ^ s.val % 2 ^ 32 = (shl32 (BitVec.ofNat 32 n) s).toNat)

/-- 42_round_functions.md R165, R166: the rounds are the steps 0..16, 17..32, 33..47, 48..63, 64..79. -/
def Obligations.RoundsOwnTheirSteps : Prop :=
  ∀ i, i ≤ 79 →
    ((roundSel i).number = 1 ↔ i ≤ 16) ∧ ((roundSel i).number = 2 ↔ 17 ≤ i ∧ i ≤ 32) ∧
    ((roundSel i).number = 3 ↔ 33 ≤ i ∧ i ≤ 47) ∧ ((roundSel i).number = 4 ↔ 48 ≤ i ∧ i ≤ 63) ∧
    ((roundSel i).number = 5 ↔ 64 ≤ i ∧ i ≤ 79) ∧ (roundSel i).row.val + 1 = (roundSel i).number

/-- 41_block_words.md R142, 43_step.md R181: RHO is the table of the rule, takes every word of X once and keeps none in place; π
depends on i mod 16 only and has the values of the rule, any sixteen consecutive steps read every word of W once, and a block reads
each of them five times. -/
def Obligations.PiAndRhoAreBijections : Prop :=
  (∀ i, piRom i = piRom (i % 16)) ∧
  (List.range 16).map (fun i => (piRom i).val) = [5, 14, 7, 0, 9, 2, 11, 4, 13, 6, 15, 8, 1, 10, 3, 12] ∧
  (∀ j : Fin 16, ∃ i, i < 16 ∧ (List.range 80).filter (fun k => piRom k == j) = [i, i + 16, i + 32, i + 48, i + 64]) ∧
  (∀ (i : Nat) (j : Fin 16), ∃ k, k < 16 ∧ piRom (i + k) = j ∧ ∀ k', k' < 16 → piRom (i + k') = j → k' = k) ∧
  rhoRom.toList.map Fin.val = [7, 4, 13, 1, 10, 6, 15, 3, 12, 0, 9, 5, 2, 14, 11, 8] ∧
  (∀ j : Fin 16, ∃ k, rhoRom.get k = j ∧ ∀ k', rhoRom.get k' = j → k' = k) ∧ (∀ k : Fin 16, rhoRom.get k ≠ k)

/-! ## Padding -/

/-- 40_padding.md R124, R125: PLEN = L + 65 + ((447 − L) mod 512), a multiple of 512, and NB = PLEN div 512 = (n + 8) div 64 + 1,
at least 1; for every message of at most 2^61 − 1 bytes (R129), as all the statements of this section. -/
def Obligations.PaddedLengthIsWholeBlocks : Prop :=
  ∀ m : Message,
    ((padBits m).length : Int) = 8 * (m.val.length : Int) + 65 + (447 - 8 * (m.val.length : Int)) % 512 ∧
    (padBits m).length % 512 = 0 ∧ numBlocks m.val.length = (padBits m).length / 512 ∧
    numBlocks m.val.length = (m.val.length + 8) / 64 + 1 ∧ 1 ≤ numBlocks m.val.length

/-- 40_padding.md R127: the byte view spells the padded sequence, each byte most significant bit first. -/
def Obligations.PadBytesSpellThePaddedSequence : Prop :=
  ∀ m : Message,
    padBits m = (List.range (64 * numBlocks m.len.val)).flatMap
      (fun q => beBits 8 (padByte (listByte m.val) m.len q).toNat)

/-- 40_padding.md R126: the bit view gives every bit of the padded sequence. -/
def Obligations.PadBitsOnDemandAreThePaddedSequence : Prop :=
  ∀ (m : Message) (j : Nat), j < (padBits m).length →
    (padBits m)[j]? = some (padBit (listByte m.val) m.len j)

/-- 40_padding.md R128: the invariants (1) to (6) of the padded sequence. -/
def Obligations.PaddingInvariants : Prop :=
  (∀ m : Message,
    (padBits m).length % 512 = 0 ∧
    uint ((padBits m).drop ((padBits m).length - 64)) = 8 * m.val.length ∧
    (padBits m).take (8 * m.val.length) = msgBits m.val ∧ (padBits m)[8 * m.val.length]? = some true ∧
    (∀ j, 8 * m.val.length < j → j < (padBits m).length - 64 → (padBits m)[j]? = some false) ∧
    8 * m.val.length + 72 ≤ (padBits m).length ∧ (padBits m).length ≤ 8 * m.val.length + 576) ∧
  (∀ m m' : Message, padBits m = padBits m' → m = m')

/-! ## Output -/

/-- 44_chaining_output.md R214, R215: the text digest has 40 characters, and character 8k + (7 − q) of it is the lowercase
hexadecimal digit of the nibble H[k][4q + 3 : 4q]. -/
def Obligations.TextDigestIsFortyHexDigits : Prop :=
  ∀ h : Five, (digestText h).length = 40 ∧
    ∀ (k : Fin 5) (q : Fin 8), (digestText h)[8 * k.val + (7 - q.val)]? =
      "0123456789abcdef".toList[([h.a, h.b, h.c, h.d, h.e].get k).toNat / 2 ^ (4 * q.val) % 16]?

/-- 44_chaining_output.md R213, R212: the digest has 20 bytes, DB[4k + m] = H[k][31 − 8m : 24 − 8m]; character pair 2q, 2q + 1 of
the text spells byte q, high nibble first; and as one number H[0] is its most significant 32 bits. -/
def Obligations.TextDigestSpellsTheTwentyBytes : Prop :=
  ∀ h : Five, (digestBytes h).length = 20 ∧
    (∀ (k : Fin 5) (m : Fin 4), ((digestBytes h)[4 * k.val + m.val]?).map BitVec.toNat =
      some (([h.a, h.b, h.c, h.d, h.e].get k).toNat / 2 ^ (24 - 8 * m.val) % 2 ^ 8)) ∧
    (∀ (q : Nat) (v : Byte), (digestBytes h)[q]? = some v →
      (digestText h)[2 * q]? = "0123456789abcdef".toList[v.toNat / 16]? ∧
      (digestText h)[2 * q + 1]? = "0123456789abcdef".toList[v.toNat % 16]?) ∧
    (digestValue h).toNat = h.a.toNat * 2 ^ 128 + h.b.toNat * 2 ^ 96 + h.c.toNat * 2 ^ 64 + h.d.toNat * 2 ^ 32 + h.e.toNat

/-! ## Invariants -/

/-- 10_state.md R50: every step keeps the invariants, from every state that meets them, and with them the message buffer's
canonical form; and a step is from a lawful state, or a reset, to a lawful state. That a reset steps from a state that is not lawful
is the model's choice (assumption log 21). -/
def Obligations.StepKeepsTheLegalStates : Prop :=
  ∀ s t : State, step s = .next t →
    (Legal s → Legal t) ∧ t.lawful = true ∧ (s.lawful = true ∨ ∃ ts, s.turns = .reset :: ts)

/-- 10_state.md R49, R50: the state after reset is legal. -/
def Obligations.ResetIsLegal : Prop := Legal State.reset

/-- 41_block_words.md R144, 70_reset_and_hazards.md R321: every step keeps W the ρ-permuted X from the end of PERM to the end of
ACCUM. -/
def Obligations.StepKeepsTheScheduleLoaded : Prop :=
  ∀ s t : State, ScheduleLoaded s → step s = .next t → ScheduleLoaded t

/-- 60_exceptions.md R280 on the lawful states: the engine's turn always answers a next state, sets no flag and stops nothing; and
the whole machine answers one for every turn that is an access to the engine. -/
def Obligations.LawfulStatesAlwaysStep : Prop :=
  (∀ s : State, s.lawful = true → ∃ t, engineTurn s = .next t ∧ t.elen = s.elen ∧ t.ebusy = s.ebusy ∧ t.ecmd = s.ecmd) ∧
  (∀ s : State, s.lawful = true → s.nextTurnInMap = true → ∃ t, step s = .next t)

/-! ## Whole-machine rules -/

/-- 10_state.md R21, R24 to R29, R31, R32, R35, R36, 20_memory.md R75: which instruction may change which state; and R27, R34,
45_sequencer.md R231 of every step: PHASE leaves IDLE only by an accepted START, and returns to IDLE only by the ACCUM of the last
block or a reset. -/
def Obligations.EachRegisterHasItsWriters : Prop :=
  (∀ (i : Instr) (s t : State), exec i s = .next t →
    (t.work ≠ s.work → i = .seed ∨ ∃ j, i = .stepF1 j ∨ i = .stepF2 j ∨ i = .stepF3 j ∨ i = .stepF4 j ∨ i = .stepF5 j) ∧
    (t.h ≠ s.h → i = .start ∨ i = .accum) ∧
    (t.x ≠ s.x → i = .ldblk) ∧ (t.w ≠ s.w → i = .perm) ∧
    (t.phase ≠ s.phase → i = .start ∨ i = .ldblk ∨ i = .perm ∨ i = .seed ∨ i = .stepF5 79#7 ∨ i = .accum) ∧
    (t.blk ≠ s.blk → i = .start ∨ i = .accum) ∧
    (t.stepIdx ≠ s.stepIdx →
      i = .seed ∨ ∃ j, i = .stepF1 j ∨ i = .stepF2 j ∨ i = .stepF3 j ∨ i = .stepF4 j ∨ i = .stepF5 j) ∧
    (t.done ≠ s.done → i = .start ∨ i = .accum) ∧
    (t.elen ≠ s.elen ∨ t.ebusy ≠ s.ebusy → i = .start ∨ i = .clrerr) ∧ (t.ecmd ≠ s.ecmd → i = .clrerr) ∧
    (∀ a, Memory.read t.msg a = Memory.read s.msg a) ∧ t.mlen = s.mlen ∧ t.cfg = s.cfg ∧
    t.turns = s.turns ∧ t.replies = s.replies) ∧
  (∀ s t : State, step s = .next t →
    (s.phase = 0#3 → t.phase ≠ 0#3 →
      ∃ ts, s.turns = .host (.wr 0x00 1#32) :: ts ∧ s.mlen.toNat ≤ s.cfg.msgBytes.val ∧ t.phase = 1#3) ∧
    (s.phase ≠ 0#3 → t.phase = 0#3 →
      (s.engineDue ∧ s.phase = 5#3 ∧ s.blk.toNat + 1 = numBlocks s.mlen.toNat) ∨ ∃ ts, s.turns = .reset :: ts))

/-- 10_state.md R35: DONE rises only in the ACCUM of the last block, as PHASE returns to IDLE, and falls only by an accepted
START or a reset. -/
def Obligations.DoneRisesAtTheLastAccumOnly : Prop :=
  ∀ s t : State, step s = .next t →
    (s.done = false → t.done = true →
      s.engineDue ∧ s.phase = 5#3 ∧ s.blk.toNat + 1 = numBlocks s.mlen.toNat ∧ t.phase = 0#3) ∧
    (s.done = true → t.done = false →
      (∃ ts, s.turns = .reset :: ts) ∨
      (∃ ts, s.turns = .host (.wr 0x00 1#32) :: ts ∧ s.phase = 0#3 ∧ s.mlen.toNat ≤ s.cfg.msgBytes.val))

/-- 20_memory.md R69, R71, 70_reset_and_hazards.md R315: while a run is in progress no host access changes MSG, MLEN or any
register the run depends on. -/
def Obligations.HostCannotDisturbARun : Prop :=
  ∀ (s t : State) (acc : Access), s.phase ≠ 0#3 → hostAccess acc s = .next t →
    t.runOnly = s.runOnly ∧ t.turns = s.turns ∧
    ∀ a, Memory.read t.msg a = Memory.read s.msg a

/-- 10_state.md R32, 20_memory.md R69: the bytes at MLEN and above have no influence on the engine. -/
def Obligations.BytesBeyondTheLengthDoNotMatter : Prop :=
  ∀ (s : State) (msg : List Host.Cell), (∀ a, a < s.mlen.toNat → Memory.read msg a = Memory.read s.msg a) →
    engineTurn { s with msg := msg } = mapNext (fun t => { t with msg := msg }) (engineTurn s)

/-- 10_state.md R36: the error flags have no influence on the engine. -/
def Obligations.ErrorFlagsDoNotMatterToTheEngine : Prop :=
  ∀ (s : State) (x y z : Bool),
    engineTurn { s with elen := x, ebusy := y, ecmd := z } =
      mapNext (fun t => { t with elen := x, ebusy := y, ecmd := z }) (engineTurn s)

/-- 45_sequencer.md R241: two lawful states whose sequencers and lengths agree take micro-operations after which the sequencers
agree again, whatever the data, the message and the configuration. -/
def Obligations.ControlFlowIgnoresData : Prop :=
  ∀ s s' : State, s.lawful = true → s'.lawful = true → s.sameControl s' →
    ∃ t t' : State, engineTurn s = .next t ∧ engineTurn s' = .next t' ∧ t.sameControl t'

/-! ## Runs -/

/-- 45_sequencer.md R237: the run that a START begins performs exactly the micro-operations of the trace, 84 · NB of them, whatever
host accesses are interleaved with it: after `ts`, in which the engine had j turns, its next turn is line j of the trace; and after
its last turn the engine stands in IDLE with DONE set. The list of turns is the model's (assumption log 6). -/
def Obligations.RunFollowsItsTrace : Prop :=
  ∀ (s : State) (ts : List Turn), s.phase = 0#3 → s.mlen.toNat ≤ s.cfg.msgBytes.val →
    (∀ u ∈ ts, u.interleaves s.cfg.msgBytes.val = true) →
    (runTrace (numBlocks s.mlen.toNat)).length = 84 * numBlocks s.mlen.toNat ∧
    (∀ line, (runTrace (numBlocks s.mlen.toNat))[ts.count .engine]? = some line →
      ∃ t : State,
        Host.Core.run core (ts.length + 1) { s with turns := .host (.wr 0x00 1#32) :: ts ++ [.engine] } = .next t ∧
        t.selected = .instr line.2 ∧ t.blk.toNat = line.1 ∧ step t = exec line.2 { t with turns := [] }) ∧
    (ts.count .engine + 1 = 84 * numBlocks s.mlen.toNat →
      ∃ t : State,
        Host.Core.run core (ts.length + 2) { s with turns := .host (.wr 0x00 1#32) :: ts ++ [.engine] } = .next t ∧
        t.phase = 0#3 ∧ t.done = true)

/-- 45_sequencer.md R238: if START is accepted where MSG[0..MLEN−1] = M, then at the engine's (84 · NB)-th turn the run ends in
IDLE with DONE = 1 and H = Digest(CFG, M), whatever host accesses are interleaved with it; MSG and MLEN are as they were. -/
def Obligations.RunEndsWithTheDigest : Prop :=
  ∀ (s : State) (m : Message) (ts : List Turn), s.phase = 0#3 → s.MessageIs m → m.len.val ≤ s.cfg.msgBytes.val →
    (∀ u ∈ ts, u.interleaves s.cfg.msgBytes.val = true) → ts.count .engine + 1 = 84 * numBlocks m.len.val →
    ∃ t : State,
      Host.Core.run core (ts.length + 2) { s with turns := .host (.wr 0x00 1#32) :: ts ++ [.engine] } = .next t ∧
      t.phase = 0#3 ∧ t.done = true ∧ t.h = digest s.cfg m ∧ t.mlen = s.mlen ∧ t.msg = s.msg ∧ t.turns = []

/-- 46_host_commands.md R261, 30_encoding.md R105: the protocol of the one operation, from any state with BUSY = 0. First as turns:
message, length, START, the run, a read of STATUS that shows DONE, and five reads that return the words of Digest(CFG, M). Then as
the host program HASH with its loop POLL, under every order of the movers: no move stops, and where the program is finished the last five
replies are those words; and it is finished when the engine had its 84 · NB turns after START and the host had six more, whatever
polls fell between. -/
def Obligations.HostProtocolReturnsTheDigest : Prop :=
  ∀ (s : State) (m : Message), s.phase = 0#3 → m.len.val ≤ s.cfg.msgBytes.val →
    (∃ (t : State) (v : Word),
      Host.Core.run core (m.val.length + 9 + 84 * numBlocks m.val.length)
        { s with turns := (wrMsgAccesses m.val ++ wrLenAccesses m.val.length ++ [Access.wr 0x00 1#32]).map .host ++
                          List.replicate (84 * numBlocks m.val.length) .engine ++
                          (Access.rd 0x04 :: rdDigAccesses).map .host } = .next t ∧
      t.replies = (digestWords (digest s.cfg m)).reverse.map .word ++ .word v :: s.replies ∧
      v.getLsbD 0 = false ∧ v.getLsbD 1 = true ∧ t.turns = []) ∧
    (∀ ms : List Mover, ∃ (t : State) (rest : List HostOp),
      runProgram ms (Pseudo.hash m.val).expand s = .next (t, rest) ∧
      (rest = [] → t.replies.take 5 = (digestWords (digest s.cfg m)).reverse.map .word)) ∧
    (∀ ms : List Mover, 84 * numBlocks m.val.length ≤ ms.count .engine →
      ∃ t : State,
        runProgram (List.replicate (m.val.length + 3) .host ++ ms ++ List.replicate 6 .host) (Pseudo.hash m.val).expand s =
          .next (t, []))
end

