-- ==== Sys2Proof/Laws/Decode.lean ====
section
/-! SUPPORT. What the decoder answers, said once: the phase and step that select each micro-operation (30_encoding.md R93,
R94, R100), and what the gate `whenSelected` lets through. -/

namespace Sys2Proof.Machine

/-- cw[9:7] of PHASE · 128 + STEP is PHASE (30_encoding.md R92). -/
@[simp] theorem cwPhase_controlWordOf (p : BitVec 3) (i : BitVec 7) : cwPhase (controlWordOf p i) = p := by
  revert p i; decide

/-- cw[6:0] of PHASE · 128 + STEP is STEP (30_encoding.md R92). -/
@[simp] theorem cwStep_controlWordOf (p : BitVec 3) (i : BitVec 7) : cwStep (controlWordOf p i) = i := by
  revert p i; decide

/-- The decoder in terms of the two registers. -/
theorem selected_eq (s : State) : s.selected =
    if s.phase = 0#3 then .instr .wait
    else if s.phase = 1#3 then .instr .ldblk
    else if s.phase = 2#3 then .instr .perm
    else if s.phase = 3#3 then .instr .seed
    else if s.phase = 4#3 then decodeRound s.stepIdx
    else if s.phase = 5#3 then .instr .accum
    else .reserved .phase := by
  simp [State.selected, State.controlWord, decodeControl]

theorem selected_idle {s : State} (h : s.phase = Phase.idle) : s.selected = .instr .wait := by
  rw [selected_eq, h]; rfl

theorem selected_ldblk {s : State} (h : s.phase = Phase.ldblk) : s.selected = .instr .ldblk := by
  rw [selected_eq, h]; rfl

theorem selected_perm {s : State} (h : s.phase = Phase.perm) : s.selected = .instr .perm := by
  rw [selected_eq, h]; rfl

theorem selected_seed {s : State} (h : s.phase = Phase.seed) : s.selected = .instr .seed := by
  rw [selected_eq, h]; rfl

theorem selected_round {s : State} (h : s.phase = Phase.round) : s.selected = decodeRound s.stepIdx := by
  rw [selected_eq, h]; rfl

theorem selected_accum {s : State} (h : s.phase = Phase.accum) : s.selected = .instr .accum := by
  rw [selected_eq, h]; rfl

/-- The answers of the round decoder: one STEP row with its own range, or none from 80 on (30_encoding.md R94, R100). -/
theorem decodeRound_cases (i : BitVec 7) :
    (i.toNat ≤ 16 ∧ decodeRound i = .instr (.stepF1 i)) ∨
    (17 ≤ i.toNat ∧ i.toNat ≤ 32 ∧ decodeRound i = .instr (.stepF2 i)) ∨
    (33 ≤ i.toNat ∧ i.toNat ≤ 47 ∧ decodeRound i = .instr (.stepF3 i)) ∨
    (48 ≤ i.toNat ∧ i.toNat ≤ 63 ∧ decodeRound i = .instr (.stepF4 i)) ∨
    (64 ≤ i.toNat ∧ i.toNat ≤ 79 ∧ decodeRound i = .instr (.stepF5 i)) ∨
    (80 ≤ i.toNat ∧ decodeRound i = .reserved .step) := by
  unfold decodeRound
  split
  · exact .inl ⟨‹_›, rfl⟩
  · split
    · exact .inr (.inl ⟨by omega, ‹_›, rfl⟩)
    · split
      · exact .inr (.inr (.inl ⟨by omega, ‹_›, rfl⟩))
      · split
        · exact .inr (.inr (.inr (.inl ⟨by omega, ‹_›, rfl⟩)))
        · split
          · exact .inr (.inr (.inr (.inr (.inl ⟨by omega, ‹_›, rfl⟩))))
          · exact .inr (.inr (.inr (.inr (.inr ⟨by omega, rfl⟩))))

theorem decodeRound_f1 {i : BitVec 7} (h : i.toNat ≤ 16) : decodeRound i = .instr (.stepF1 i) := by
  simp [decodeRound, h]

theorem decodeRound_f2 {i : BitVec 7} (h : 17 ≤ i.toNat) (h' : i.toNat ≤ 32) : decodeRound i = .instr (.stepF2 i) := by
  simp [decodeRound, h', Nat.not_le.2 h]

theorem decodeRound_f3 {i : BitVec 7} (h : 33 ≤ i.toNat) (h' : i.toNat ≤ 47) : decodeRound i = .instr (.stepF3 i) := by
  rw [decodeRound, if_neg (by omega), if_neg (by omega), if_pos h']

theorem decodeRound_f4 {i : BitVec 7} (h : 48 ≤ i.toNat) (h' : i.toNat ≤ 63) : decodeRound i = .instr (.stepF4 i) := by
  rw [decodeRound, if_neg (by omega), if_neg (by omega), if_neg (by omega), if_pos h']

theorem decodeRound_f5 {i : BitVec 7} (h : 64 ≤ i.toNat) (h' : i.toNat ≤ 79) : decodeRound i = .instr (.stepF5 i) := by
  rw [decodeRound, if_neg (by omega), if_neg (by omega), if_neg (by omega), if_neg (by omega), if_pos h']

/-- What can be selected, by the phase: everything the engine's decoder can answer (45_sequencer.md R230). -/
theorem selected_cases (s : State) :
    (s.phase = Phase.idle ∧ s.selected = .instr .wait) ∨
    (s.phase = Phase.ldblk ∧ s.selected = .instr .ldblk) ∨
    (s.phase = Phase.perm ∧ s.selected = .instr .perm) ∨
    (s.phase = Phase.seed ∧ s.selected = .instr .seed) ∨
    (s.phase = Phase.round ∧ s.selected = decodeRound s.stepIdx) ∨
    (s.phase = Phase.accum ∧ s.selected = .instr .accum) ∨
    (6 ≤ s.phase.toNat ∧ s.selected = .reserved .phase) := by
  rw [selected_eq]
  generalize s.phase = p
  generalize s.stepIdx = i
  have hp : p = 0#3 ∨ p = 1#3 ∨ p = 2#3 ∨ p = 3#3 ∨ p = 4#3 ∨ p = 5#3 ∨ p = 6#3 ∨ p = 7#3 := by revert p; decide
  rcases hp with rfl | rfl | rfl | rfl | rfl | rfl | rfl | rfl <;> simp

/-- The gate opens exactly for the selected micro-operation. -/
theorem whenSelected_of {i : Instr} {s : State} (k : Result) (h : s.selected = .instr i) : whenSelected i s k = k :=
  if_pos h

theorem whenSelected_else {i : Instr} {s : State} (k : Result) (h : s.selected ≠ .instr i) :
    whenSelected i s k = .fault .notSelected :=
  if_neg h

/-- What a gated meaning can do: answer next, and then only for the selected micro-operation. -/
theorem whenSelected_next {i : Instr} {s t : State} {k : Result} (h : whenSelected i s k = .next t) :
    s.selected = .instr i ∧ k = .next t := by
  unfold whenSelected at h
  split at h
  · exact ⟨‹_›, h⟩
  · cases h

/-- The selected micro-operation is well formed: a STEP is selected at an index of its own round (30_encoding.md R94, R97). -/
theorem selected_wellFormed {s : State} {i : Instr} (h : s.selected = .instr i) : i.wellFormed = true := by
  rcases selected_cases s with ⟨-, hs⟩ | ⟨-, hs⟩ | ⟨-, hs⟩ | ⟨-, hs⟩ | ⟨-, hs⟩ | ⟨-, hs⟩ | ⟨-, hs⟩ <;> rw [hs] at h
  all_goals try (cases h <;> rfl)
  rcases decodeRound_cases s.stepIdx with ⟨hr, hd⟩ | ⟨hl, hr, hd⟩ | ⟨hl, hr, hd⟩ | ⟨hl, hr, hd⟩ | ⟨hl, hr, hd⟩ | ⟨-, hd⟩ <;>
    rw [hd] at h <;> cases h <;> simp_all [Instr.wellFormed]

end Sys2Proof.Machine
end

