-- ==== Sys2Proof/Laws/Memory.lean ====
section
/-! SUPPORT. The message buffer: a read after a write, and the canonical form that every write keeps. -/

namespace Sys2Proof.Machine

@[simp] theorem read_nil (a : Nat) : Memory.read [] a = none := rfl

theorem read_cons (k : Nat) (v : Byte) (m : List Host.Cell) (a : Nat) :
    Memory.read ((k, v) :: m) a = if k = a then some v else Memory.read m a := rfl

/-- A read after a write to the same address gives the value written. -/
@[simp] theorem read_write_same (m : List Host.Cell) (a : Nat) (v : Byte) :
    Memory.read (Memory.write m a v) a = some v := by
  induction m with
  | nil => simp [Memory.write, read_cons]
  | cons p m ih =>
    obtain ⟨k, u⟩ := p
    rw [Memory.write]
    split
    · simp [read_cons]
    · split
      · simp [read_cons]
      · rw [read_cons, if_neg (by omega), ih]

/-- A write leaves every other address alone. -/
theorem read_write_other (m : List Host.Cell) {a b : Nat} (v : Byte) (hab : b ≠ a) :
    Memory.read (Memory.write m a v) b = Memory.read m b := by
  induction m with
  | nil => simp [Memory.write, read_cons, Ne.symm hab]
  | cons p m ih =>
    obtain ⟨k, u⟩ := p
    rw [Memory.write]
    split
    · rw [read_cons, if_neg (Ne.symm hab)]
    · split
      · next h => subst h; simp [read_cons, Ne.symm hab]
      · rw [read_cons, read_cons, ih]

/-- The addresses after a write are the old ones and the one written. -/
theorem mem_write {m : List Host.Cell} {a : Nat} {v : Byte} {p : Host.Cell} (hp : p ∈ Memory.write m a v) :
    p ∈ m ∨ p = (a, v) := by
  induction m with
  | nil => simpa [Memory.write] using hp
  | cons q m ih =>
    obtain ⟨k, u⟩ := q
    rw [Memory.write] at hp
    split at hp
    · rcases List.mem_cons.1 hp with h | h
      · exact .inr h
      · exact .inl h
    · split at hp
      · rcases List.mem_cons.1 hp with h | h
        · exact .inr h
        · exact .inl (List.mem_cons_of_mem _ h)
      · rcases List.mem_cons.1 hp with h | h
        · exact .inl (h ▸ List.mem_cons_self)
        · rcases ih h with h | h
          · exact .inl (List.mem_cons_of_mem _ h)
          · exact .inr h

theorem wf_iff (m : List Host.Cell) : Memory.wf m = true ↔ m.Pairwise (fun p q => p.1 < q.1) := by
  simp [Memory.wf]

/-- A write keeps the addresses strictly rising. -/
theorem wf_write {m : List Host.Cell} (a : Nat) (v : Byte) (hm : Memory.wf m = true) :
    Memory.wf (Memory.write m a v) = true := by
  rw [wf_iff] at *
  induction m with
  | nil => simp [Memory.write]
  | cons q m ih =>
    obtain ⟨k, u⟩ := q
    obtain ⟨hk, hrest⟩ := List.pairwise_cons.1 hm
    rw [Memory.write]
    split
    · next h =>
      refine List.pairwise_cons.2 ⟨fun p hp => ?_, hm⟩
      rcases List.mem_cons.1 hp with rfl | hp
      · exact h
      · exact Nat.lt_trans h (hk p hp)
    · split
      · next h => subst h; exact List.pairwise_cons.2 ⟨hk, hrest⟩
      · refine List.pairwise_cons.2 ⟨fun p hp => ?_, ih hrest⟩
        rcases mem_write hp with h | rfl
        · exact hk p h
        · show k < a
          omega

theorem within_iff (cap : Nat) (m : List Host.Cell) :
    Memory.within cap m = true ↔ ∀ p ∈ m, p.1 < cap := by
  simp [Memory.within]

/-- A write at an address of the buffer keeps every listed address inside it. -/
theorem within_write {cap : Nat} {m : List Host.Cell} {a : Nat} (v : Byte) (hm : Memory.within cap m = true) (ha : a < cap) :
    Memory.within cap (Memory.write m a v) = true := by
  rw [within_iff] at *
  intro p hp
  rcases mem_write hp with h | rfl
  · exact hm p h
  · exact ha

/-- A read that finds a value finds a listed cell. -/
theorem mem_of_read {m : List Host.Cell} {a : Nat} {v : Byte} (h : Memory.read m a = some v) : (a, v) ∈ m := by
  induction m with
  | nil => simp at h
  | cons q m ih =>
    obtain ⟨k, u⟩ := q
    rw [read_cons] at h
    split at h
    · next hk => subst hk; cases h; exact List.mem_cons_self
    · exact List.mem_cons_of_mem _ (ih h)

/-- Equal memories are equal data: two canonical lists that read alike are the same list. -/
theorem wf_ext {m n : List Host.Cell} (hm : Memory.wf m = true) (hn : Memory.wf n = true)
    (h : ∀ a, Memory.read m a = Memory.read n a) : m = n := by
  rw [wf_iff] at hm hn
  have absent : ∀ (k : Nat) (l : List Host.Cell), (∀ p ∈ l, k < p.1) → Memory.read l k = none := by
    intro k l hl
    cases hr : Memory.read l k with
    | none => rfl
    | some v => exact absurd (hl _ (mem_of_read hr)) (Nat.lt_irrefl _)
  induction m generalizing n with
  | nil =>
    cases n with
    | nil => rfl
    | cons q n => obtain ⟨k, u⟩ := q; have := h k; simp [read_cons] at this
  | cons p m ih =>
    obtain ⟨k, u⟩ := p
    obtain ⟨hk, hm'⟩ := List.pairwise_cons.1 hm
    cases n with
    | nil => have := h k; simp [read_cons] at this
    | cons q n =>
      obtain ⟨j, w⟩ := q
      obtain ⟨hj, hn'⟩ := List.pairwise_cons.1 hn
      have hkj : k = j := by
        rcases Nat.lt_trichotomy k j with hlt | heq | hgt
        · have := h k
          rw [read_cons, if_pos rfl, absent k ((j, w) :: n)] at this
          · cases this
          · intro p hp
            rcases List.mem_cons.1 hp with rfl | hp
            · exact hlt
            · exact Nat.lt_trans hlt (hj p hp)
        · exact heq
        · have := h j
          rw [read_cons j, if_pos rfl, absent j ((k, u) :: m)] at this
          · cases this
          · intro p hp
            rcases List.mem_cons.1 hp with rfl | hp
            · exact hgt
            · exact Nat.lt_trans hgt (hk p hp)
      subst hkj
      have huw : u = w := by have := h k; simpa [read_cons] using this
      subst huw
      congr 1
      refine ih hm' hn' fun a => ?_
      have := h a
      rw [read_cons, read_cons] at this
      by_cases hka : k = a
      · subst hka; rw [absent k m hk, absent k n hj]
      · simpa [hka] using this

/-- The buffer after reset lists nothing and so has the canonical form (10_state.md R49). -/
theorem reset_msg_wf : Memory.wf State.reset.msg = true := by decide

end Sys2Proof.Machine
end

