-- ==== Sys2Proof/Laws/State.lean ====
section
/-! SUPPORT. One lemma per field per named update of State, so that no later proof unfolds a record update. -/

namespace Sys2Proof.Machine

@[simp] theorem raise_elen_phase (s : State) : (raiseFlag .elen s).phase = s.phase := rfl
@[simp] theorem raise_elen_blk (s : State) : (raiseFlag .elen s).blk = s.blk := rfl
@[simp] theorem raise_elen_stepIdx (s : State) : (raiseFlag .elen s).stepIdx = s.stepIdx := rfl
@[simp] theorem raise_elen_work (s : State) : (raiseFlag .elen s).work = s.work := rfl
@[simp] theorem raise_elen_h (s : State) : (raiseFlag .elen s).h = s.h := rfl
@[simp] theorem raise_elen_x (s : State) : (raiseFlag .elen s).x = s.x := rfl
@[simp] theorem raise_elen_w (s : State) : (raiseFlag .elen s).w = s.w := rfl
@[simp] theorem raise_elen_mlen (s : State) : (raiseFlag .elen s).mlen = s.mlen := rfl
@[simp] theorem raise_elen_msg (s : State) : (raiseFlag .elen s).msg = s.msg := rfl
@[simp] theorem raise_elen_done (s : State) : (raiseFlag .elen s).done = s.done := rfl
@[simp] theorem raise_elen_elen (s : State) : (raiseFlag .elen s).elen = true := rfl
@[simp] theorem raise_elen_ebusy (s : State) : (raiseFlag .elen s).ebusy = s.ebusy := rfl
@[simp] theorem raise_elen_ecmd (s : State) : (raiseFlag .elen s).ecmd = s.ecmd := rfl
@[simp] theorem raise_elen_cfg (s : State) : (raiseFlag .elen s).cfg = s.cfg := rfl
@[simp] theorem raise_elen_turns (s : State) : (raiseFlag .elen s).turns = s.turns := rfl
@[simp] theorem raise_elen_replies (s : State) : (raiseFlag .elen s).replies = s.replies := rfl
@[simp] theorem raise_elen_draws (s : State) : (raiseFlag .elen s).draws = s.draws := rfl

@[simp] theorem raise_ebusy_phase (s : State) : (raiseFlag .ebusy s).phase = s.phase := rfl
@[simp] theorem raise_ebusy_blk (s : State) : (raiseFlag .ebusy s).blk = s.blk := rfl
@[simp] theorem raise_ebusy_stepIdx (s : State) : (raiseFlag .ebusy s).stepIdx = s.stepIdx := rfl
@[simp] theorem raise_ebusy_work (s : State) : (raiseFlag .ebusy s).work = s.work := rfl
@[simp] theorem raise_ebusy_h (s : State) : (raiseFlag .ebusy s).h = s.h := rfl
@[simp] theorem raise_ebusy_x (s : State) : (raiseFlag .ebusy s).x = s.x := rfl
@[simp] theorem raise_ebusy_w (s : State) : (raiseFlag .ebusy s).w = s.w := rfl
@[simp] theorem raise_ebusy_mlen (s : State) : (raiseFlag .ebusy s).mlen = s.mlen := rfl
@[simp] theorem raise_ebusy_msg (s : State) : (raiseFlag .ebusy s).msg = s.msg := rfl
@[simp] theorem raise_ebusy_done (s : State) : (raiseFlag .ebusy s).done = s.done := rfl
@[simp] theorem raise_ebusy_elen (s : State) : (raiseFlag .ebusy s).elen = s.elen := rfl
@[simp] theorem raise_ebusy_ebusy (s : State) : (raiseFlag .ebusy s).ebusy = true := rfl
@[simp] theorem raise_ebusy_ecmd (s : State) : (raiseFlag .ebusy s).ecmd = s.ecmd := rfl
@[simp] theorem raise_ebusy_cfg (s : State) : (raiseFlag .ebusy s).cfg = s.cfg := rfl
@[simp] theorem raise_ebusy_turns (s : State) : (raiseFlag .ebusy s).turns = s.turns := rfl
@[simp] theorem raise_ebusy_replies (s : State) : (raiseFlag .ebusy s).replies = s.replies := rfl
@[simp] theorem raise_ebusy_draws (s : State) : (raiseFlag .ebusy s).draws = s.draws := rfl

@[simp] theorem raise_ecmd_phase (s : State) : (raiseFlag .ecmd s).phase = s.phase := rfl
@[simp] theorem raise_ecmd_blk (s : State) : (raiseFlag .ecmd s).blk = s.blk := rfl
@[simp] theorem raise_ecmd_stepIdx (s : State) : (raiseFlag .ecmd s).stepIdx = s.stepIdx := rfl
@[simp] theorem raise_ecmd_work (s : State) : (raiseFlag .ecmd s).work = s.work := rfl
@[simp] theorem raise_ecmd_h (s : State) : (raiseFlag .ecmd s).h = s.h := rfl
@[simp] theorem raise_ecmd_x (s : State) : (raiseFlag .ecmd s).x = s.x := rfl
@[simp] theorem raise_ecmd_w (s : State) : (raiseFlag .ecmd s).w = s.w := rfl
@[simp] theorem raise_ecmd_mlen (s : State) : (raiseFlag .ecmd s).mlen = s.mlen := rfl
@[simp] theorem raise_ecmd_msg (s : State) : (raiseFlag .ecmd s).msg = s.msg := rfl
@[simp] theorem raise_ecmd_done (s : State) : (raiseFlag .ecmd s).done = s.done := rfl
@[simp] theorem raise_ecmd_elen (s : State) : (raiseFlag .ecmd s).elen = s.elen := rfl
@[simp] theorem raise_ecmd_ebusy (s : State) : (raiseFlag .ecmd s).ebusy = s.ebusy := rfl
@[simp] theorem raise_ecmd_ecmd (s : State) : (raiseFlag .ecmd s).ecmd = true := rfl
@[simp] theorem raise_ecmd_cfg (s : State) : (raiseFlag .ecmd s).cfg = s.cfg := rfl
@[simp] theorem raise_ecmd_turns (s : State) : (raiseFlag .ecmd s).turns = s.turns := rfl
@[simp] theorem raise_ecmd_replies (s : State) : (raiseFlag .ecmd s).replies = s.replies := rfl
@[simp] theorem raise_ecmd_draws (s : State) : (raiseFlag .ecmd s).draws = s.draws := rfl

@[simp] theorem clearErrors_phase (s : State) : (clearErrors s).phase = s.phase := rfl
@[simp] theorem clearErrors_blk (s : State) : (clearErrors s).blk = s.blk := rfl
@[simp] theorem clearErrors_stepIdx (s : State) : (clearErrors s).stepIdx = s.stepIdx := rfl
@[simp] theorem clearErrors_work (s : State) : (clearErrors s).work = s.work := rfl
@[simp] theorem clearErrors_h (s : State) : (clearErrors s).h = s.h := rfl
@[simp] theorem clearErrors_x (s : State) : (clearErrors s).x = s.x := rfl
@[simp] theorem clearErrors_w (s : State) : (clearErrors s).w = s.w := rfl
@[simp] theorem clearErrors_mlen (s : State) : (clearErrors s).mlen = s.mlen := rfl
@[simp] theorem clearErrors_msg (s : State) : (clearErrors s).msg = s.msg := rfl
@[simp] theorem clearErrors_done (s : State) : (clearErrors s).done = s.done := rfl
@[simp] theorem clearErrors_elen (s : State) : (clearErrors s).elen = false := rfl
@[simp] theorem clearErrors_ebusy (s : State) : (clearErrors s).ebusy = false := rfl
@[simp] theorem clearErrors_ecmd (s : State) : (clearErrors s).ecmd = false := rfl
@[simp] theorem clearErrors_cfg (s : State) : (clearErrors s).cfg = s.cfg := rfl
@[simp] theorem clearErrors_turns (s : State) : (clearErrors s).turns = s.turns := rfl
@[simp] theorem clearErrors_replies (s : State) : (clearErrors s).replies = s.replies := rfl
@[simp] theorem clearErrors_draws (s : State) : (clearErrors s).draws = s.draws := rfl

@[simp] theorem reply_phase (r : Reply) (s : State) : (reply r s).phase = s.phase := rfl
@[simp] theorem reply_blk (r : Reply) (s : State) : (reply r s).blk = s.blk := rfl
@[simp] theorem reply_stepIdx (r : Reply) (s : State) : (reply r s).stepIdx = s.stepIdx := rfl
@[simp] theorem reply_work (r : Reply) (s : State) : (reply r s).work = s.work := rfl
@[simp] theorem reply_h (r : Reply) (s : State) : (reply r s).h = s.h := rfl
@[simp] theorem reply_x (r : Reply) (s : State) : (reply r s).x = s.x := rfl
@[simp] theorem reply_w (r : Reply) (s : State) : (reply r s).w = s.w := rfl
@[simp] theorem reply_mlen (r : Reply) (s : State) : (reply r s).mlen = s.mlen := rfl
@[simp] theorem reply_msg (r : Reply) (s : State) : (reply r s).msg = s.msg := rfl
@[simp] theorem reply_done (r : Reply) (s : State) : (reply r s).done = s.done := rfl
@[simp] theorem reply_elen (r : Reply) (s : State) : (reply r s).elen = s.elen := rfl
@[simp] theorem reply_ebusy (r : Reply) (s : State) : (reply r s).ebusy = s.ebusy := rfl
@[simp] theorem reply_ecmd (r : Reply) (s : State) : (reply r s).ecmd = s.ecmd := rfl
@[simp] theorem reply_cfg (r : Reply) (s : State) : (reply r s).cfg = s.cfg := rfl
@[simp] theorem reply_turns (r : Reply) (s : State) : (reply r s).turns = s.turns := rfl
@[simp] theorem reply_replies (r : Reply) (s : State) : (reply r s).replies = r :: s.replies := rfl
@[simp] theorem reply_draws (r : Reply) (s : State) : (reply r s).draws = s.draws := rfl

@[simp] theorem replyFreeWord_phase (s : State) : (replyFreeWord s).phase = s.phase := rfl
@[simp] theorem replyFreeWord_blk (s : State) : (replyFreeWord s).blk = s.blk := rfl
@[simp] theorem replyFreeWord_stepIdx (s : State) : (replyFreeWord s).stepIdx = s.stepIdx := rfl
@[simp] theorem replyFreeWord_work (s : State) : (replyFreeWord s).work = s.work := rfl
@[simp] theorem replyFreeWord_h (s : State) : (replyFreeWord s).h = s.h := rfl
@[simp] theorem replyFreeWord_x (s : State) : (replyFreeWord s).x = s.x := rfl
@[simp] theorem replyFreeWord_w (s : State) : (replyFreeWord s).w = s.w := rfl
@[simp] theorem replyFreeWord_mlen (s : State) : (replyFreeWord s).mlen = s.mlen := rfl
@[simp] theorem replyFreeWord_msg (s : State) : (replyFreeWord s).msg = s.msg := rfl
@[simp] theorem replyFreeWord_done (s : State) : (replyFreeWord s).done = s.done := rfl
@[simp] theorem replyFreeWord_elen (s : State) : (replyFreeWord s).elen = s.elen := rfl
@[simp] theorem replyFreeWord_ebusy (s : State) : (replyFreeWord s).ebusy = s.ebusy := rfl
@[simp] theorem replyFreeWord_ecmd (s : State) : (replyFreeWord s).ecmd = s.ecmd := rfl
@[simp] theorem replyFreeWord_cfg (s : State) : (replyFreeWord s).cfg = s.cfg := rfl
@[simp] theorem replyFreeWord_turns (s : State) : (replyFreeWord s).turns = s.turns := rfl
@[simp] theorem replyFreeWord_replies (s : State) : (replyFreeWord s).replies = .word (Config.freeWord s.draws) :: s.replies := rfl
@[simp] theorem replyFreeWord_draws (s : State) : (replyFreeWord s).draws = s.draws + 1 := rfl

@[simp] theorem replyFreeByte_phase (a : Nat) (s : State) : (replyFreeByte a s).phase = s.phase := rfl
@[simp] theorem replyFreeByte_blk (a : Nat) (s : State) : (replyFreeByte a s).blk = s.blk := rfl
@[simp] theorem replyFreeByte_stepIdx (a : Nat) (s : State) : (replyFreeByte a s).stepIdx = s.stepIdx := rfl
@[simp] theorem replyFreeByte_work (a : Nat) (s : State) : (replyFreeByte a s).work = s.work := rfl
@[simp] theorem replyFreeByte_h (a : Nat) (s : State) : (replyFreeByte a s).h = s.h := rfl
@[simp] theorem replyFreeByte_x (a : Nat) (s : State) : (replyFreeByte a s).x = s.x := rfl
@[simp] theorem replyFreeByte_w (a : Nat) (s : State) : (replyFreeByte a s).w = s.w := rfl
@[simp] theorem replyFreeByte_mlen (a : Nat) (s : State) : (replyFreeByte a s).mlen = s.mlen := rfl
@[simp] theorem replyFreeByte_msg (a : Nat) (s : State) : (replyFreeByte a s).msg = s.msg := rfl
@[simp] theorem replyFreeByte_done (a : Nat) (s : State) : (replyFreeByte a s).done = s.done := rfl
@[simp] theorem replyFreeByte_elen (a : Nat) (s : State) : (replyFreeByte a s).elen = s.elen := rfl
@[simp] theorem replyFreeByte_ebusy (a : Nat) (s : State) : (replyFreeByte a s).ebusy = s.ebusy := rfl
@[simp] theorem replyFreeByte_ecmd (a : Nat) (s : State) : (replyFreeByte a s).ecmd = s.ecmd := rfl
@[simp] theorem replyFreeByte_cfg (a : Nat) (s : State) : (replyFreeByte a s).cfg = s.cfg := rfl
@[simp] theorem replyFreeByte_turns (a : Nat) (s : State) : (replyFreeByte a s).turns = s.turns := rfl
@[simp] theorem replyFreeByte_replies (a : Nat) (s : State) : (replyFreeByte a s).replies = .byte (Config.freeByte s.draws a) :: s.replies := rfl
@[simp] theorem replyFreeByte_draws (a : Nat) (s : State) : (replyFreeByte a s).draws = s.draws + 1 := rfl

@[simp] theorem acceptStart_phase (s : State) : (acceptStart s).phase = Phase.ldblk := rfl
@[simp] theorem acceptStart_blk (s : State) : (acceptStart s).blk = 0#56 := rfl
@[simp] theorem acceptStart_stepIdx (s : State) : (acceptStart s).stepIdx = s.stepIdx := rfl
@[simp] theorem acceptStart_work (s : State) : (acceptStart s).work = s.work := rfl
@[simp] theorem acceptStart_h (s : State) : (acceptStart s).h = s.cfg.iv := rfl
@[simp] theorem acceptStart_x (s : State) : (acceptStart s).x = s.x := rfl
@[simp] theorem acceptStart_w (s : State) : (acceptStart s).w = s.w := rfl
@[simp] theorem acceptStart_mlen (s : State) : (acceptStart s).mlen = s.mlen := rfl
@[simp] theorem acceptStart_msg (s : State) : (acceptStart s).msg = s.msg := rfl
@[simp] theorem acceptStart_done (s : State) : (acceptStart s).done = false := rfl
@[simp] theorem acceptStart_elen (s : State) : (acceptStart s).elen = s.elen := rfl
@[simp] theorem acceptStart_ebusy (s : State) : (acceptStart s).ebusy = s.ebusy := rfl
@[simp] theorem acceptStart_ecmd (s : State) : (acceptStart s).ecmd = s.ecmd := rfl
@[simp] theorem acceptStart_cfg (s : State) : (acceptStart s).cfg = s.cfg := rfl
@[simp] theorem acceptStart_turns (s : State) : (acceptStart s).turns = s.turns := rfl
@[simp] theorem acceptStart_replies (s : State) : (acceptStart s).replies = s.replies := rfl
@[simp] theorem acceptStart_draws (s : State) : (acceptStart s).draws = s.draws := rfl

@[simp] theorem hardwareReset_phase (s : State) : (hardwareReset s).phase = State.reset.phase := rfl
@[simp] theorem hardwareReset_blk (s : State) : (hardwareReset s).blk = State.reset.blk := rfl
@[simp] theorem hardwareReset_stepIdx (s : State) : (hardwareReset s).stepIdx = State.reset.stepIdx := rfl
@[simp] theorem hardwareReset_work (s : State) : (hardwareReset s).work = State.reset.work := rfl
@[simp] theorem hardwareReset_h (s : State) : (hardwareReset s).h = State.reset.h := rfl
@[simp] theorem hardwareReset_x (s : State) : (hardwareReset s).x = State.reset.x := rfl
@[simp] theorem hardwareReset_w (s : State) : (hardwareReset s).w = State.reset.w := rfl
@[simp] theorem hardwareReset_mlen (s : State) : (hardwareReset s).mlen = State.reset.mlen := rfl
@[simp] theorem hardwareReset_msg (s : State) : (hardwareReset s).msg = State.reset.msg := rfl
@[simp] theorem hardwareReset_done (s : State) : (hardwareReset s).done = State.reset.done := rfl
@[simp] theorem hardwareReset_elen (s : State) : (hardwareReset s).elen = State.reset.elen := rfl
@[simp] theorem hardwareReset_ebusy (s : State) : (hardwareReset s).ebusy = State.reset.ebusy := rfl
@[simp] theorem hardwareReset_ecmd (s : State) : (hardwareReset s).ecmd = State.reset.ecmd := rfl
@[simp] theorem hardwareReset_cfg (s : State) : (hardwareReset s).cfg = s.cfg := rfl
@[simp] theorem hardwareReset_turns (s : State) : (hardwareReset s).turns = s.turns := rfl
@[simp] theorem hardwareReset_replies (s : State) : (hardwareReset s).replies = s.replies := rfl
@[simp] theorem hardwareReset_draws (s : State) : (hardwareReset s).draws = s.draws := rfl

@[simp] theorem engineOnly_phase (s : State) : (State.engineOnly s).phase = s.phase := rfl
@[simp] theorem engineOnly_blk (s : State) : (State.engineOnly s).blk = s.blk := rfl
@[simp] theorem engineOnly_stepIdx (s : State) : (State.engineOnly s).stepIdx = s.stepIdx := rfl
@[simp] theorem engineOnly_work (s : State) : (State.engineOnly s).work = s.work := rfl
@[simp] theorem engineOnly_h (s : State) : (State.engineOnly s).h = s.h := rfl
@[simp] theorem engineOnly_x (s : State) : (State.engineOnly s).x = s.x := rfl
@[simp] theorem engineOnly_w (s : State) : (State.engineOnly s).w = s.w := rfl
@[simp] theorem engineOnly_mlen (s : State) : (State.engineOnly s).mlen = s.mlen := rfl
@[simp] theorem engineOnly_msg (s : State) : (State.engineOnly s).msg = s.msg := rfl
@[simp] theorem engineOnly_done (s : State) : (State.engineOnly s).done = s.done := rfl
@[simp] theorem engineOnly_elen (s : State) : (State.engineOnly s).elen = s.elen := rfl
@[simp] theorem engineOnly_ebusy (s : State) : (State.engineOnly s).ebusy = s.ebusy := rfl
@[simp] theorem engineOnly_ecmd (s : State) : (State.engineOnly s).ecmd = s.ecmd := rfl
@[simp] theorem engineOnly_cfg (s : State) : (State.engineOnly s).cfg = s.cfg := rfl
@[simp] theorem engineOnly_turns (s : State) : (State.engineOnly s).turns = [] := rfl
@[simp] theorem engineOnly_replies (s : State) : (State.engineOnly s).replies = [] := rfl
@[simp] theorem engineOnly_draws (s : State) : (State.engineOnly s).draws = 0 := rfl

@[simp] theorem runOnly_phase (s : State) : (State.runOnly s).phase = s.phase := rfl
@[simp] theorem runOnly_blk (s : State) : (State.runOnly s).blk = s.blk := rfl
@[simp] theorem runOnly_stepIdx (s : State) : (State.runOnly s).stepIdx = s.stepIdx := rfl
@[simp] theorem runOnly_work (s : State) : (State.runOnly s).work = s.work := rfl
@[simp] theorem runOnly_h (s : State) : (State.runOnly s).h = s.h := rfl
@[simp] theorem runOnly_x (s : State) : (State.runOnly s).x = s.x := rfl
@[simp] theorem runOnly_w (s : State) : (State.runOnly s).w = s.w := rfl
@[simp] theorem runOnly_mlen (s : State) : (State.runOnly s).mlen = s.mlen := rfl
@[simp] theorem runOnly_msg (s : State) : (State.runOnly s).msg = s.msg := rfl
@[simp] theorem runOnly_done (s : State) : (State.runOnly s).done = s.done := rfl
@[simp] theorem runOnly_elen (s : State) : (State.runOnly s).elen = false := rfl
@[simp] theorem runOnly_ebusy (s : State) : (State.runOnly s).ebusy = false := rfl
@[simp] theorem runOnly_ecmd (s : State) : (State.runOnly s).ecmd = false := rfl
@[simp] theorem runOnly_cfg (s : State) : (State.runOnly s).cfg = s.cfg := rfl
@[simp] theorem runOnly_turns (s : State) : (State.runOnly s).turns = [] := rfl
@[simp] theorem runOnly_replies (s : State) : (State.runOnly s).replies = [] := rfl
@[simp] theorem runOnly_draws (s : State) : (State.runOnly s).draws = 0 := rfl

@[simp] theorem reset_phase : State.reset.phase = Phase.idle := rfl
@[simp] theorem reset_mlen : State.reset.mlen = 0#64 := rfl
@[simp] theorem reset_msg : State.reset.msg = [] := rfl
@[simp] theorem reset_done : State.reset.done = false := rfl
@[simp] theorem reset_elen : State.reset.elen = false := rfl
@[simp] theorem reset_ebusy : State.reset.ebusy = false := rfl
@[simp] theorem reset_ecmd : State.reset.ecmd = false := rfl

end Sys2Proof.Machine
end

