-- ==== Sys2Proof/Laws/Ops.lean ====
section
/-! SUPPORT. One spec lemma per shared operation over words, the buffer's capacity, and the BUSY gate. -/

namespace Sys2Proof.Machine

/-- The capacity test of START is MLEN ≤ MSG_BYTES (46_host_commands.md R252). -/
theorem fits_iff (cfg : Cfg) (n : Nat) : fits cfg n = true ↔ n ≤ cfg.msgBytes.val := by
  cases n with
  | zero => simp [fits]
  | succ k => simp [fits]

theorem numBlocks_pos (n : Nat) : 0 < numBlocks n := Nat.succ_pos _

/-- A message inside the buffer has at most 2^55 + 1 blocks, so BLK never wraps (10_state.md R28). -/
theorem numBlocks_le {cfg : Cfg} {n : Nat} (h : n ≤ cfg.msgBytes.val) : numBlocks n ≤ 2 ^ 55 + 1 := by
  have := cfg.msgBytes.isLt
  unfold numBlocks
  omega

theorem unlessBusy_idle {s : State} (k : State) (h : s.phase = Phase.idle) : unlessBusy s k = k := if_pos h

theorem unlessBusy_busy {s : State} (k : State) (h : s.phase ≠ Phase.idle) : unlessBusy s k = raiseFlag .ebusy s := if_neg h

/-- A word of sixteen filled by a function. -/
theorem words16_get (f : Nat → Word) (j : Fin 16) : (words16 f).get j = f j.val := by
  fin_cases j <;> rfl

/-- W[i] = X[RHO[i]] (41_block_words.md R143). -/
theorem permute_get (x : Vector Word 16) (i : Fin 16) : (permute x).get i = x.get (rhoRom.get i) := by
  fin_cases i <;> rfl

/-- Bytes to a word: p0·2^24 + p1·2^16 + p2·2^8 + p3 (20_memory.md R62). -/
theorem wordOfBytes_toNat (p0 p1 p2 p3 : Byte) : (wordOfBytes p0 p1 p2 p3).toNat =
    p0.toNat * 2 ^ 24 + p1.toNat * 2 ^ 16 + p2.toNat * 2 ^ 8 + p3.toNat := by
  have h0 := p0.isLt; have h1 := p1.isLt; have h2 := p2.isLt; have h3 := p3.isLt
  simp only [wordOfBytes, BitVec.toNat_append]
  rw [← Nat.shiftLeft_add_eq_or_of_lt h1, ← Nat.shiftLeft_add_eq_or_of_lt h2, ← Nat.shiftLeft_add_eq_or_of_lt h3]
  simp only [Nat.shiftLeft_eq]
  omega

/-- A written byte is read whatever the draw; an unwritten one is the draw's free byte. -/
theorem messageByte_written {s : State} {a : Nat} {v : Byte} (h : Memory.read s.msg a = some v) : s.messageByte a = v := by
  simp [State.messageByte, h]

/-- A raised flag changes nothing of the state a run depends on (10_state.md R36). -/
@[simp] theorem runOnly_raiseFlag (f : ErrFlag) (s : State) : (raiseFlag f s).runOnly = s.runOnly := by cases f <;> rfl

@[simp] theorem runOnly_clearErrors (s : State) : (clearErrors s).runOnly = s.runOnly := rfl

@[simp] theorem engineOnly_reply (r : Reply) (s : State) : (reply r s).engineOnly = s.engineOnly := rfl

@[simp] theorem engineOnly_replyFreeWord (s : State) : (replyFreeWord s).engineOnly = s.engineOnly := rfl

@[simp] theorem engineOnly_replyFreeByte (a : Nat) (s : State) : (replyFreeByte a s).engineOnly = s.engineOnly := rfl

end Sys2Proof.Machine
end

