-- ==== Sys2Proof/Laws/Invariants.lean ====
section
/-! SUPPORT. The tests `inRun` and `lawful` spelled out, what the gates over them let through, and that a step which leaves PHASE,
STEP, BLK, MLEN, DONE and the configuration alone leaves them alone. -/

namespace Sys2Proof.Machine

/-- What 10_state.md R50 (3) and (4) ask of a state whose PHASE is not IDLE. -/
theorem inRun_iff (s : State) : s.inRun = true ↔
    s.blk.toNat < numBlocks s.mlen.toNat ∧ s.mlen.toNat ≤ s.cfg.msgBytes.val ∧ s.done = false := by
  simp [State.inRun, fits_iff, and_assoc]

/-- 10_state.md R50 (1) to (4). -/
theorem lawful_iff (s : State) : s.lawful = true ↔
    s.phase.toNat ≤ 5 ∧ (s.phase = Phase.round → s.stepIdx.toNat ≤ 79) ∧
    (s.phase ≠ Phase.idle →
      s.blk.toNat < numBlocks s.mlen.toNat ∧ s.mlen.toNat ≤ s.cfg.msgBytes.val) ∧
    (s.done = true → s.phase = Phase.idle) := by
  by_cases hp : s.phase = Phase.idle
  · simp [State.lawful, hp, Phase.idle, Phase.round]
  · simp [State.lawful, hp, inRun_iff, and_assoc, ← imp_iff_not_or]

/-- An idle state is lawful whatever else it holds. -/
theorem lawful_idle {s : State} (hp : s.phase = Phase.idle) : s.lawful = true := by
  simp [State.lawful, hp, Phase.idle, Phase.round]

/-- A lawful state that is not idle is in a run. -/
theorem inRun_of_lawful {s : State} (h : s.lawful = true) (hp : s.phase ≠ Phase.idle) : s.inRun = true := by
  have hor := (Bool.and_eq_true_iff.1 h).2
  simpa [hp] using hor

/-- The invariants of the claims contain those of R50. -/
theorem Legal.lawful {s : State} (h : Legal s) : s.lawful = true :=
  (lawful_iff s).2 ⟨h.phase_le, h.step_le, fun hp => ⟨h.blk_lt hp, h.mlen_le hp⟩, h.done_idle⟩

/-! ## The gates -/

theorem whenLawful_of {s : State} (k : Result) (h : s.lawful = true) : whenLawful s k = k := if_pos h

theorem whenLawful_else {s : State} (k : Result) (h : s.lawful = false) : whenLawful s k = .refused .outsideInvariants :=
  if_neg (by simp [h])

/-- What a gated access or command can do: answer next, and then only in a lawful state. -/
theorem whenLawful_next {s t : State} {k : Result} (h : whenLawful s k = .next t) : s.lawful = true ∧ k = .next t := by
  unfold whenLawful at h
  split at h
  · exact ⟨‹_›, h⟩
  · cases h

/-- The gate of a micro-operation opens for the selected one in a run. -/
theorem whenInRun_of {i : Instr} {s : State} (k : s.inRun = true → Result) (h : s.selected = .instr i)
    (hr : s.inRun = true) : whenInRun i s k = k hr :=
  (whenSelected_of _ h).trans (dif_pos hr)

theorem whenInRun_else {i : Instr} {s : State} (k : s.inRun = true → Result) (h : s.selected ≠ .instr i) :
    whenInRun i s k = .fault .notSelected :=
  whenSelected_else _ h

/-- What a gated micro-operation can do: answer next, and then only for the selected one in a run. -/
theorem whenInRun_next {i : Instr} {s t : State} {k : s.inRun = true → Result} (h : whenInRun i s k = .next t) :
    s.selected = .instr i ∧ ∃ hr : s.inRun = true, k hr = .next t := by
  obtain ⟨hs, hk⟩ := whenSelected_next h
  split at hk
  · next hr => exact ⟨hs, hr, hk⟩
  · cases hk

/-- WAIT is selected in IDLE only (45_sequencer.md R231). -/
theorem idle_of_selected_wait {s : State} (h : s.selected = .instr .wait) : s.phase = Phase.idle := by
  rcases selected_cases s with ⟨hp, -⟩ | ⟨-, hs⟩ | ⟨-, hs⟩ | ⟨-, hs⟩ | ⟨-, hs⟩ | ⟨-, hs⟩ | ⟨-, hs⟩
  · exact hp
  all_goals rw [hs] at h
  all_goals try contradiction
  rcases decodeRound_cases s.stepIdx with ⟨-, hd⟩ | ⟨-, -, hd⟩ | ⟨-, -, hd⟩ | ⟨-, -, hd⟩ | ⟨-, -, hd⟩ | ⟨-, hd⟩ <;>
    (rw [hd] at h; cases h)

/-- A control word that selects a micro-operation meets R50 (1) and (2), so a state that meets (3) and (4) too is lawful. -/
theorem lawful_of_inRun {s : State} {i : Instr} (h : s.selected = .instr i) (hr : s.inRun = true) : s.lawful = true := by
  obtain ⟨hb, hm, hd⟩ := (inRun_iff s).1 hr
  refine (lawful_iff s).2 ⟨?_, fun hp => ?_, fun _ => ⟨hb, hm⟩, fun h' => by simp [hd] at h'⟩
  · rcases selected_cases s with ⟨hp, -⟩ | ⟨hp, -⟩ | ⟨hp, -⟩ | ⟨hp, -⟩ | ⟨hp, -⟩ | ⟨hp, -⟩ | ⟨-, hs⟩
    all_goals first | (rw [hp]; decide) | (rw [hs] at h; cases h)
  · rw [selected_round hp] at h
    rcases decodeRound_cases s.stepIdx with h' | h' | h' | h' | h' | ⟨-, hs⟩
    all_goals first | omega | (rw [hs] at h; cases h)

/-! ## What leaves the invariants alone -/

theorem lawful_turns (s : State) (ts : List Turn) : ({ s with turns := ts } : State).lawful = s.lawful := rfl

theorem inRun_turns (s : State) (ts : List Turn) : ({ s with turns := ts } : State).inRun = s.inRun := rfl

/-- What agrees on the state a run depends on agrees on the invariants. -/
theorem lawful_of_runOnly {s t : State} (h : s.runOnly = t.runOnly) : s.lawful = t.lawful :=
  show s.runOnly.lawful = t.runOnly.lawful by rw [h]

end Sys2Proof.Machine
end

