-- ==== Sys2Proof/Laws/Exec.lean ====
section
/-! SUPPORT. What each instruction can do, said once: if exec answers next t, then t is this (45_sequencer.md R231 to R236,
46_host_commands.md R251 to R253). -/

namespace Sys2Proof.Machine

theorem exec_nop {s : State} (hl : s.lawful = true) : exec .nop s = .next s := whenLawful_of _ hl

theorem exec_nop_next {s t : State} (h : exec .nop s = .next t) : s.lawful = true ∧ t = s := by
  obtain ⟨hl, hk⟩ := whenLawful_next h
  cases hk
  exact ⟨hl, rfl⟩

theorem exec_clrerr {s : State} (hl : s.lawful = true) : exec .clrerr s = .next (clearErrors s) := whenLawful_of _ hl

theorem exec_clrerr_next {s t : State} (h : exec .clrerr s = .next t) : s.lawful = true ∧ t = clearErrors s := by
  obtain ⟨hl, hk⟩ := whenLawful_next h
  cases hk
  exact ⟨hl, rfl⟩

/-- The three cases of START. -/
theorem exec_start {s : State} (hl : s.lawful = true) :
    (s.phase ≠ Phase.idle ∧ exec .start s = .next (raiseFlag .ebusy s)) ∨
    (s.phase = Phase.idle ∧ s.cfg.msgBytes.val < s.mlen.toNat ∧ exec .start s = .next (raiseFlag .elen s)) ∨
    (s.phase = Phase.idle ∧ s.mlen.toNat ≤ s.cfg.msgBytes.val ∧ exec .start s = .next (acceptStart s)) := by
  have he : exec .start s =
      .next (unlessBusy s (if fits s.cfg s.mlen.toNat then acceptStart s else raiseFlag .elen s)) := whenLawful_of _ hl
  by_cases hp : s.phase = Phase.idle
  · rw [he, unlessBusy_idle _ hp]
    by_cases hf : fits s.cfg s.mlen.toNat = true
    · exact .inr (.inr ⟨hp, (fits_iff _ _).1 hf, by rw [if_pos hf]⟩)
    · exact .inr (.inl ⟨hp, Nat.lt_of_not_le fun h => hf ((fits_iff _ _).2 h), by rw [if_neg hf]⟩)
  · exact .inl ⟨hp, by rw [he, unlessBusy_busy _ hp]⟩

theorem exec_start_next {s t : State} (h : exec .start s = .next t) : s.lawful = true := (whenLawful_next h).1

theorem exec_wait_next {s t : State} (h : exec .wait s = .next t) : s.selected = .instr .wait ∧ t = s := by
  obtain ⟨hs, hk⟩ := whenSelected_next h
  cases hk
  exact ⟨hs, rfl⟩

theorem exec_ldblk_next {s t : State} (h : exec .ldblk s = .next t) :
    s.selected = .instr .ldblk ∧ s.inRun = true ∧ ∃ n : MsgLen, n.val = s.mlen.toNat ∧
    t = { s with x := loadBlock s.messageByte n s.blk.toNat, phase := Phase.perm, draws := s.draws + 1 } := by
  obtain ⟨hs, hr, hk⟩ := whenInRun_next h
  cases hk
  exact ⟨hs, hr, ⟨_, inRun_lt hr⟩, rfl, rfl⟩

theorem exec_perm_next {s t : State} (h : exec .perm s = .next t) :
    s.selected = .instr .perm ∧ s.inRun = true ∧ t = { s with w := permute s.x, phase := Phase.seed } := by
  obtain ⟨hs, hr, hk⟩ := whenInRun_next h
  cases hk
  exact ⟨hs, hr, rfl⟩

theorem exec_seed_next {s t : State} (h : exec .seed s = .next t) :
    s.selected = .instr .seed ∧ s.inRun = true ∧ t = { s with work := s.h, stepIdx := 0#7, phase := Phase.round } := by
  obtain ⟨hs, hr, hk⟩ := whenInRun_next h
  cases hk
  exact ⟨hs, hr, rfl⟩

theorem exec_stepF1_next {i : BitVec 7} {s t : State} (h : exec (.stepF1 i) s = .next t) :
    s.selected = .instr (.stepF1 i) ∧ s.inRun = true ∧ t = roundStep .r1 i s := by
  obtain ⟨hs, hr, hk⟩ := whenInRun_next h
  cases hk
  exact ⟨hs, hr, rfl⟩

theorem exec_stepF2_next {i : BitVec 7} {s t : State} (h : exec (.stepF2 i) s = .next t) :
    s.selected = .instr (.stepF2 i) ∧ s.inRun = true ∧ t = roundStep .r2 i s := by
  obtain ⟨hs, hr, hk⟩ := whenInRun_next h
  cases hk
  exact ⟨hs, hr, rfl⟩

theorem exec_stepF3_next {i : BitVec 7} {s t : State} (h : exec (.stepF3 i) s = .next t) :
    s.selected = .instr (.stepF3 i) ∧ s.inRun = true ∧ t = roundStep .r3 i s := by
  obtain ⟨hs, hr, hk⟩ := whenInRun_next h
  cases hk
  exact ⟨hs, hr, rfl⟩

theorem exec_stepF4_next {i : BitVec 7} {s t : State} (h : exec (.stepF4 i) s = .next t) :
    s.selected = .instr (.stepF4 i) ∧ s.inRun = true ∧ t = roundStep .r4 i s := by
  obtain ⟨hs, hr, hk⟩ := whenInRun_next h
  cases hk
  exact ⟨hs, hr, rfl⟩

theorem exec_stepF5_next {i : BitVec 7} {s t : State} (h : exec (.stepF5 i) s = .next t) :
    s.selected = .instr (.stepF5 i) ∧ s.inRun = true ∧ t = roundStep .r5 i s := by
  obtain ⟨hs, hr, hk⟩ := whenInRun_next h
  cases hk
  exact ⟨hs, hr, rfl⟩

theorem exec_accum_next {s t : State} (h : exec .accum s = .next t) :
    s.selected = .instr .accum ∧ s.inRun = true ∧ t = advanceBlock { s with h := addLanes s.h s.work } := by
  obtain ⟨hs, hr, hk⟩ := whenInRun_next h
  cases hk
  exact ⟨hs, hr, rfl⟩

/-- No instruction has an effect in a state that breaks the invariants (10_state.md R50). -/
theorem exec_next_lawful {i : Instr} {s t : State} (h : exec i s = .next t) : s.lawful = true := by
  cases i with
  | nop => exact (exec_nop_next h).1
  | start => exact exec_start_next h
  | clrerr => exact (exec_clrerr_next h).1
  | wait => exact lawful_idle (idle_of_selected_wait (exec_wait_next h).1)
  | ldblk => obtain ⟨hs, hr, -⟩ := exec_ldblk_next h; exact lawful_of_inRun hs hr
  | perm => obtain ⟨hs, hr, -⟩ := exec_perm_next h; exact lawful_of_inRun hs hr
  | seed => obtain ⟨hs, hr, -⟩ := exec_seed_next h; exact lawful_of_inRun hs hr
  | stepF1 j => obtain ⟨hs, hr, -⟩ := exec_stepF1_next h; exact lawful_of_inRun hs hr
  | stepF2 j => obtain ⟨hs, hr, -⟩ := exec_stepF2_next h; exact lawful_of_inRun hs hr
  | stepF3 j => obtain ⟨hs, hr, -⟩ := exec_stepF3_next h; exact lawful_of_inRun hs hr
  | stepF4 j => obtain ⟨hs, hr, -⟩ := exec_stepF4_next h; exact lawful_of_inRun hs hr
  | stepF5 j => obtain ⟨hs, hr, -⟩ := exec_stepF5_next h; exact lawful_of_inRun hs hr
  | accum => obtain ⟨hs, hr, -⟩ := exec_accum_next h; exact lawful_of_inRun hs hr

/-- Nor has the engine's turn. -/
theorem engineTurn_next_lawful {s t : State} (h : engineTurn s = .next t) : s.lawful = true := by
  unfold engineTurn at h
  split at h
  · exact exec_next_lawful h
  · cases h

/-- The ROUND transition in its two cases (45_sequencer.md R235). -/
theorem roundStep_lt {r : Round} {i : BitVec 7} (s : State) (h : i.toNat < 79) : roundStep r i s =
    { s with work := roundRegs s.cfg s.w r i.toNat s.work, stepIdx := i + 1#7 } := by
  simp [roundStep, advanceStep, h]

theorem roundStep_last {r : Round} {i : BitVec 7} (s : State) (h : 79 ≤ i.toNat) : roundStep r i s =
    { s with work := roundRegs s.cfg s.w r i.toNat s.work, phase := Phase.accum } := by
  simp [roundStep, advanceStep, Nat.not_lt.2 h]

/-- A STEP micro-operation of the selected round: the one that `roundSel` names (42_round_functions.md R165, R167). -/
theorem engineTurn_round {s : State} (hp : s.phase = Phase.round) (hi : s.stepIdx.toNat ≤ 79) (hrun : s.inRun = true) :
    engineTurn s = .next (roundStep (roundSel s.stepIdx.toNat) s.stepIdx s) := by
  have hsel := selected_round hp
  unfold engineTurn
  rcases decodeRound_cases s.stepIdx with ⟨h, hd⟩ | ⟨h, h', hd⟩ | ⟨h, h', hd⟩ | ⟨h, h', hd⟩ | ⟨h, h', hd⟩ | ⟨h, hd⟩
  · rw [hd] at hsel
    have hr : roundSel s.stepIdx.toNat = .r1 := by simp [roundSel, h]
    rw [hsel, hr]
    exact whenInRun_of _ hsel hrun
  · rw [hd] at hsel
    have hr : roundSel s.stepIdx.toNat = .r2 := by
      rw [roundSel, if_neg (by omega), if_pos (by omega)]
    rw [hsel, hr]
    exact whenInRun_of _ hsel hrun
  · rw [hd] at hsel
    have hr : roundSel s.stepIdx.toNat = .r3 := by
      rw [roundSel, if_neg (by omega), if_neg (by omega), if_pos (by omega)]
    rw [hsel, hr]
    exact whenInRun_of _ hsel hrun
  · rw [hd] at hsel
    have hr : roundSel s.stepIdx.toNat = .r4 := by
      rw [roundSel, if_neg (by omega), if_neg (by omega), if_neg (by omega), if_pos (by omega)]
    rw [hsel, hr]
    exact whenInRun_of _ hsel hrun
  · rw [hd] at hsel
    have hr : roundSel s.stepIdx.toNat = .r5 := by
      rw [roundSel, if_neg (by omega), if_neg (by omega), if_neg (by omega), if_neg (by omega)]
    rw [hsel, hr]
    exact whenInRun_of _ hsel hrun
  · omega

/-- The engine's turn in each phase; what it answers everywhere, by the phase (45_sequencer.md R230). -/
theorem engineTurn_idle {s : State} (hp : s.phase = Phase.idle) : engineTurn s = .next s := by
  have hsel := selected_idle hp
  rw [engineTurn, hsel]
  exact whenSelected_of _ hsel

theorem exec_ldblk {s : State} (n : MsgLen) (hn : n.val = s.mlen.toNat) (hp : s.phase = Phase.ldblk) (hr : s.inRun = true) :
    exec .ldblk s = .next
      { s with x := loadBlock s.messageByte n s.blk.toNat, phase := Phase.perm, draws := s.draws + 1 } := by
  have hn' : n = ⟨s.mlen.toNat, inRun_lt hr⟩ := Fin.ext hn
  rw [hn']
  exact whenInRun_of _ (selected_ldblk hp) hr

theorem engineTurn_ldblk {s : State} (n : MsgLen) (hn : n.val = s.mlen.toNat) (hp : s.phase = Phase.ldblk)
    (hr : s.inRun = true) : engineTurn s = .next
      { s with x := loadBlock s.messageByte n s.blk.toNat, phase := Phase.perm, draws := s.draws + 1 } := by
  rw [engineTurn, selected_ldblk hp]
  exact exec_ldblk n hn hp hr

theorem engineTurn_perm {s : State} (hp : s.phase = Phase.perm) (hr : s.inRun = true) :
    engineTurn s = .next { s with w := permute s.x, phase := Phase.seed } := by
  have hsel := selected_perm hp
  rw [engineTurn, hsel]
  exact whenInRun_of _ hsel hr

theorem engineTurn_seed {s : State} (hp : s.phase = Phase.seed) (hr : s.inRun = true) :
    engineTurn s = .next { s with work := s.h, stepIdx := 0#7, phase := Phase.round } := by
  have hsel := selected_seed hp
  rw [engineTurn, hsel]
  exact whenInRun_of _ hsel hr

theorem engineTurn_accum {s : State} (hp : s.phase = Phase.accum) (hr : s.inRun = true) :
    engineTurn s = .next (advanceBlock { s with h := addLanes s.h s.work }) := by
  have hsel := selected_accum hp
  rw [engineTurn, hsel]
  exact whenInRun_of _ hsel hr

/-- Everything the engine's turn can do: the micro-operation of its phase, outside IDLE in a run only, and no next state elsewhere
(45_sequencer.md R231 to R236, 30_encoding.md R100, 10_state.md R50). -/
theorem engineTurn_next {s t : State} (h : engineTurn s = .next t) :
    (s.phase = Phase.idle ∧ t = s) ∨
    (s.phase = Phase.ldblk ∧ s.inRun = true ∧ ∃ n : MsgLen, n.val = s.mlen.toNat ∧
      t = { s with x := loadBlock s.messageByte n s.blk.toNat, phase := Phase.perm, draws := s.draws + 1 }) ∨
    (s.phase = Phase.perm ∧ s.inRun = true ∧ t = { s with w := permute s.x, phase := Phase.seed }) ∨
    (s.phase = Phase.seed ∧ s.inRun = true ∧ t = { s with work := s.h, stepIdx := 0#7, phase := Phase.round }) ∨
    (s.phase = Phase.round ∧ s.inRun = true ∧ s.stepIdx.toNat ≤ 79 ∧
      t = roundStep (roundSel s.stepIdx.toNat) s.stepIdx s) ∨
    (s.phase = Phase.accum ∧ s.inRun = true ∧ t = advanceBlock { s with h := addLanes s.h s.work }) := by
  rcases selected_cases s with ⟨hp, hs⟩ | ⟨hp, hs⟩ | ⟨hp, hs⟩ | ⟨hp, hs⟩ | ⟨hp, hs⟩ | ⟨hp, hs⟩ | ⟨-, hs⟩
  · simp only [engineTurn, hs] at h; exact .inl ⟨hp, (exec_wait_next h).2⟩
  · simp only [engineTurn, hs] at h; exact .inr (.inl ⟨hp, (exec_ldblk_next h).2⟩)
  · simp only [engineTurn, hs] at h; exact .inr (.inr (.inl ⟨hp, (exec_perm_next h).2⟩))
  · simp only [engineTurn, hs] at h; exact .inr (.inr (.inr (.inl ⟨hp, (exec_seed_next h).2⟩)))
  · have hr : s.inRun = true := by
      rcases decodeRound_cases s.stepIdx with h' | h' | h' | h' | h' | h'
      · simp only [engineTurn, hs, h'.2] at h; exact (exec_stepF1_next h).2.1
      · simp only [engineTurn, hs, h'.2.2] at h; exact (exec_stepF2_next h).2.1
      · simp only [engineTurn, hs, h'.2.2] at h; exact (exec_stepF3_next h).2.1
      · simp only [engineTurn, hs, h'.2.2] at h; exact (exec_stepF4_next h).2.1
      · simp only [engineTurn, hs, h'.2.2] at h; exact (exec_stepF5_next h).2.1
      · simp [engineTurn, hs, h'.2] at h
    by_cases hi : s.stepIdx.toNat ≤ 79
    · rw [engineTurn_round hp hi hr] at h
      cases h
      exact .inr (.inr (.inr (.inr (.inl ⟨hp, hr, hi, rfl⟩))))
    · have hd : decodeRound s.stepIdx = .reserved .step := by
        rcases decodeRound_cases s.stepIdx with h | h | h | h | h | h <;> first | omega | exact h.2
      simp [engineTurn, hs, hd] at h
  · simp only [engineTurn, hs] at h; exact .inr (.inr (.inr (.inr (.inr ⟨hp, (exec_accum_next h).2⟩))))
  · simp [engineTurn, hs] at h

end Sys2Proof.Machine
end

