-- ==== Sys2Proof/Laws/Host.lean ====
section
/-! SUPPORT. Host accesses: the register map, the commands, and what an access can do, said once. -/

namespace Sys2Proof.Machine

/-- Every register is found at its own offset, and only there (10_state.md R37). -/
theorem regAt_offset (r : Reg) : regAt r.offset = some r := by
  cases r with
  | digest k => fin_cases k <;> rfl
  | _ => rfl

theorem hostAccess_wr {off : Nat} {r : Reg} {s : State} (h : regAt off = some r) (v : Word) (hl : s.lawful = true) :
    hostAccess (.wr off v) s = hostWriteReg r v s := by simp [hostAccess, whenLawful_of _ hl, h]

theorem hostAccess_rd {off : Nat} {r : Reg} {s : State} (h : regAt off = some r) (hl : s.lawful = true) :
    hostAccess (.rd off) s = .next (hostReadReg r s) := by simp [hostAccess, whenLawful_of _ hl, h]

theorem hostAccess_wrb {a : Nat} {s : State} (h : a < s.cfg.msgBytes.val) (v : Byte) (hl : s.lawful = true) :
    hostAccess (.wrb a v) s = .next (hostWriteByte a v s) :=
  (whenLawful_of _ hl).trans (if_pos h)

theorem hostAccess_rdb {a : Nat} {s : State} (h : a < s.cfg.msgBytes.val) (hl : s.lawful = true) :
    hostAccess (.rdb a) s = .next (hostReadByte a s) :=
  (whenLawful_of _ hl).trans (if_pos h)

/-- A host access in a state that breaks R50 is refused (10_state.md R50). -/
theorem hostAccess_else {s : State} (acc : Access) (h : s.lawful = false) :
    hostAccess acc s = .refused .outsideInvariants :=
  whenLawful_else _ h

/-- The three commands and the reserved values, by the value written (30_encoding.md R91, R99). -/
theorem decodeCommand_cases (v : Word) :
    (v = 0#32 ∧ decodeCommand v = .instr .nop) ∨ (v = 1#32 ∧ decodeCommand v = .instr .start) ∨
    (v = 2#32 ∧ decodeCommand v = .instr .clrerr) ∨
    ((v = 3#32 ∨ cmdReserved v ≠ 0#30) ∧ v ≠ 0#32 ∧ v ≠ 1#32 ∧ v ≠ 2#32 ∧ decodeCommand v = .reserved .command) := by
  by_cases hz : cmdReserved v = 0#30
  · have hlt : v.toNat < 4 := by
      have h := congrArg BitVec.toNat hz
      have hv := v.isLt
      simp only [cmdReserved, BitVec.extractLsb'_toNat, Nat.shiftRight_eq_div_pow, BitVec.toNat_ofNat] at h
      omega
    have hv : v = 0#32 ∨ v = 1#32 ∨ v = 2#32 ∨ v = 3#32 := by
      simp only [← BitVec.toNat_inj, BitVec.toNat_ofNat]
      omega
    rcases hv with rfl | rfl | rfl | rfl <;> decide
  · refine .inr (.inr (.inr ⟨.inr hz, ?_, ?_, ?_, by simp [decodeCommand, hz]⟩)) <;>
      (rintro rfl; exact hz (by decide))

/-- A write to CMD that decodes to a command is exec of it, in every state (10_state.md R38). -/
theorem hostAccess_command {v : Word} {i : Instr} (hd : decodeCommand v = .instr i) (s : State) :
    hostAccess (.wr 0x00 v) s = exec i s := by
  have hc : hostAccess (.wr 0x00 v) s = whenLawful s (exec i s) := by
    simp [hostAccess, regAt, hostWriteReg, hostCommand, hd]
  rw [hc]
  by_cases hl : s.lawful = true
  · exact whenLawful_of _ hl
  · have hl' : s.lawful = false := by simpa using hl
    rw [whenLawful_else _ hl']
    rcases decodeCommand_cases v with ⟨-, h⟩ | ⟨-, h⟩ | ⟨-, h⟩ | ⟨-, -, -, -, h⟩ <;> rw [h] at hd <;> cases hd <;>
      exact (whenLawful_else _ hl').symm

/-- A read of a register changes nothing of the engine (20_memory.md R70). -/
theorem hostReadReg_engineOnly (r : Reg) (s : State) : (hostReadReg r s).engineOnly = s.engineOnly := by
  cases r with
  | digest k => by_cases h : s.done = true <;> simp [hostReadReg, h]
  | _ => rfl

/-- A read of a message byte changes nothing of the engine (20_memory.md R70). -/
theorem hostReadByte_engineOnly (a : Nat) (s : State) : (hostReadByte a s).engineOnly = s.engineOnly := by
  unfold hostReadByte
  split <;> rfl

/-- What agrees on the engine's state agrees on what a run depends on. -/
theorem runOnly_of_engineOnly {s t : State} (h : s.engineOnly = t.engineOnly) : s.runOnly = t.runOnly := by
  have := congrArg State.runOnly h
  simpa [State.runOnly, State.engineOnly] using this

/-- While PHASE ≠ IDLE no host access changes what the run depends on (20_memory.md R71, 70_reset_and_hazards.md R315). -/
theorem hostAccess_busy {acc : Access} {s : State} (hl : s.lawful = true) (hb : s.phase ≠ Phase.idle)
    (hm : acc.inMap s.cfg.msgBytes.val = true) :
    ∃ t, hostAccess acc s = .next t ∧ t.runOnly = s.runOnly ∧ t.turns = s.turns := by
  cases acc with
  | wr off v =>
    obtain ⟨r, hr⟩ := Option.isSome_iff_exists.1 hm
    rw [hostAccess_wr hr v hl]
    cases r with
    | cmd =>
      simp only [hostWriteReg, hostCommand]
      rcases decodeCommand_cases v with ⟨-, hd⟩ | ⟨-, hd⟩ | ⟨-, hd⟩ | ⟨-, -, -, -, hd⟩ <;> rw [hd]
      · exact ⟨_, exec_nop hl, rfl, rfl⟩
      · rcases exec_start hl with ⟨-, he⟩ | ⟨hi, -⟩ | ⟨hi, -⟩
        · exact ⟨_, he, runOnly_raiseFlag _ _, rfl⟩
        · exact absurd hi hb
        · exact absurd hi hb
      · exact ⟨_, exec_clrerr hl, rfl, rfl⟩
      · exact ⟨_, rfl, runOnly_raiseFlag _ _, rfl⟩
    | status => exact ⟨_, rfl, rfl, rfl⟩
    | mlenLo => exact ⟨_, rfl, by rw [unlessBusy_busy _ hb]; exact runOnly_raiseFlag _ _, by rw [unlessBusy_busy _ hb]; rfl⟩
    | mlenHi => exact ⟨_, rfl, by rw [unlessBusy_busy _ hb]; exact runOnly_raiseFlag _ _, by rw [unlessBusy_busy _ hb]; rfl⟩
    | digest k => exact ⟨_, rfl, rfl, rfl⟩
  | rd off =>
    obtain ⟨r, hr⟩ := Option.isSome_iff_exists.1 hm
    refine ⟨_, hostAccess_rd hr hl, runOnly_of_engineOnly (hostReadReg_engineOnly r s), ?_⟩
    cases r with
    | digest k => by_cases h : s.done = true <;> simp [hostReadReg, h]
    | _ => rfl
  | wrb addr v =>
    have ha : addr < s.cfg.msgBytes.val := by simpa [Access.inMap] using hm
    exact ⟨_, hostAccess_wrb ha v hl, by rw [hostWriteByte, unlessBusy_busy _ hb]; exact runOnly_raiseFlag _ _,
      by rw [hostWriteByte, unlessBusy_busy _ hb]; rfl⟩
  | rdb addr =>
    have ha : addr < s.cfg.msgBytes.val := by simpa [Access.inMap] using hm
    refine ⟨_, hostAccess_rdb ha hl, runOnly_of_engineOnly (hostReadByte_engineOnly addr s), ?_⟩
    unfold hostReadByte
    split <;> rfl

/-- An offset decodes to a register at that offset (10_state.md R37). -/
theorem offset_of_regAt {off : Nat} {r : Reg} (h : regAt off = some r) : r.offset = off := by
  simp only [regAt] at h
  split_ifs at h <;> cases h <;> exact Eq.symm ‹_›

/-- Everything a host access can do, whatever the access, and that it does it in a lawful state only (46_host_commands.md R251 to
R260, 10_state.md R50). -/
theorem hostAccess_next {acc : Access} {s t : State} (h : hostAccess acc s = .next t) : s.lawful = true ∧ (
    t = s ∨ (∃ f, t = raiseFlag f s) ∨ t = clearErrors s ∨
    (acc = .wr 0x00 1#32 ∧ s.phase = Phase.idle ∧ s.mlen.toNat ≤ s.cfg.msgBytes.val ∧ t = acceptStart s) ∨
    (s.phase = Phase.idle ∧ ∃ n, t = { s with mlen := n }) ∨
    (s.phase = Phase.idle ∧ ∃ a v, a < s.cfg.msgBytes.val ∧ t = { s with msg := Memory.write s.msg a v }) ∨
    (∃ r, t = reply r s) ∨ t = replyFreeWord s ∨ (∃ a, t = replyFreeByte a s)) := by
  obtain ⟨hl, h⟩ := whenLawful_next h
  refine ⟨hl, ?_⟩
  cases acc with
  | wr off v =>
    simp only at h
    cases hr : regAt off with
    | none => simp [hr] at h
    | some r =>
      have hoff := offset_of_regAt hr
      simp only [hr] at h
      cases r with
      | cmd =>
        have h' : hostCommand v s = .next t := h
        unfold hostCommand at h'
        rcases decodeCommand_cases v with ⟨-, hd⟩ | ⟨hv, hd⟩ | ⟨-, hd⟩ | ⟨-, -, -, -, hd⟩ <;> simp only [hd] at h'
        · exact .inl (exec_nop_next h').2
        · rcases exec_start hl with ⟨hp, he⟩ | ⟨hp, hl, he⟩ | ⟨hp, hl, he⟩ <;> rw [he] at h' <;> cases h'
          · exact .inr (.inl ⟨_, rfl⟩)
          · exact .inr (.inl ⟨_, rfl⟩)
          · exact .inr (.inr (.inr (.inl ⟨by rw [← hoff, hv]; rfl, hp, hl, rfl⟩)))
        · exact .inr (.inr (.inl (exec_clrerr_next h').2))
        · exact .inr (.inl ⟨.ecmd, by cases h'; rfl⟩)
      | status => cases h; exact .inl rfl
      | mlenLo =>
        cases h
        by_cases hp : s.phase = Phase.idle
        · rw [unlessBusy_idle _ hp]; exact .inr (.inr (.inr (.inr (.inl ⟨hp, _, rfl⟩))))
        · rw [unlessBusy_busy _ hp]; exact .inr (.inl ⟨_, rfl⟩)
      | mlenHi =>
        cases h
        by_cases hp : s.phase = Phase.idle
        · rw [unlessBusy_idle _ hp]; exact .inr (.inr (.inr (.inr (.inl ⟨hp, _, rfl⟩))))
        · rw [unlessBusy_busy _ hp]; exact .inr (.inl ⟨_, rfl⟩)
      | digest k => cases h; exact .inl rfl
  | rd off =>
    simp only at h
    cases hr : regAt off with
    | none => simp [hr] at h
    | some r =>
      simp only [hr] at h
      cases h
      cases r with
      | digest k =>
        by_cases hd : s.done = true
        · exact .inr (.inr (.inr (.inr (.inr (.inr (.inl ⟨_, if_pos hd⟩))))))
        · exact .inr (.inr (.inr (.inr (.inr (.inr (.inr (.inl (if_neg hd))))))))
      | _ => exact .inr (.inr (.inr (.inr (.inr (.inr (.inl ⟨_, rfl⟩))))))
  | wrb a v =>
    simp only at h
    split at h
    · cases h
      by_cases hp : s.phase = Phase.idle
      · rw [hostWriteByte, unlessBusy_idle _ hp]; exact .inr (.inr (.inr (.inr (.inr (.inl ⟨hp, a, v, ‹_›, rfl⟩)))))
      · rw [hostWriteByte, unlessBusy_busy _ hp]; exact .inr (.inl ⟨_, rfl⟩)
    · cases h
  | rdb a =>
    simp only at h
    split at h
    · cases h
      unfold hostReadByte
      split
      · exact .inr (.inr (.inr (.inr (.inr (.inr (.inl ⟨_, rfl⟩))))))
      · exact .inr (.inr (.inr (.inr (.inr (.inr (.inr (.inr ⟨a, rfl⟩)))))))
    · cases h

end Sys2Proof.Machine
end

