-- ==== Sys2Proof/Laws/Step.lean ====
section
/-! SUPPORT. What a step can do, by the coming turn. -/

namespace Sys2Proof.Machine

theorem step_nil {s : State} (h : s.turns = []) : step s = engineTurn s := by simp [step, takeTurn, h]

theorem step_engine {s : State} {ts : List Turn} (h : s.turns = .engine :: ts) :
    step s = engineTurn { s with turns := ts } := by simp [step, takeTurn, h]

theorem step_host {s : State} {acc : Access} {ts : List Turn} (h : s.turns = .host acc :: ts) :
    step s = hostAccess acc { s with turns := ts } := by simp [step, takeTurn, h]

theorem step_reset {s : State} {ts : List Turn} (h : s.turns = .reset :: ts) :
    step s = .next (hardwareReset { s with turns := ts }) := by simp [step, takeTurn, h]

/-- Every step is one of four turns. -/
theorem step_cases (s : State) :
    (s.turns = [] ∧ step s = engineTurn s) ∨
    (∃ ts, s.turns = .engine :: ts ∧ step s = engineTurn { s with turns := ts }) ∨
    (∃ acc ts, s.turns = .host acc :: ts ∧ step s = hostAccess acc { s with turns := ts }) ∨
    (∃ ts, s.turns = .reset :: ts ∧ step s = .next (hardwareReset { s with turns := ts })) := by
  cases h : s.turns with
  | nil => exact .inl ⟨rfl, step_nil h⟩
  | cons t ts =>
    cases t with
    | engine => exact .inr (.inl ⟨ts, rfl, step_engine h⟩)
    | host acc => exact .inr (.inr (.inl ⟨acc, ts, rfl, step_host h⟩))
    | reset => exact .inr (.inr (.inr ⟨ts, rfl, step_reset h⟩))

/-- The coming turns do not matter to the engine's micro-operation: it can be run before or after the list changes. -/
theorem selected_turns (s : State) (ts : List Turn) : ({ s with turns := ts } : State).selected = s.selected := rfl

end Sys2Proof.Machine
end

