-- ==== Sys2Proof/Laws/HostProgram.lean ====
section
/-! SUPPORT. Running a host program, one move at a time and in pieces. -/

namespace Sys2Proof.Machine

@[simp] theorem runProgram_nil (prog : List HostOp) (s : State) : runProgram [] prog s = .next (s, prog) := rfl

@[simp] theorem runProgram_finished (ms : List Mover) (s : State) : runProgram (.host :: ms) [] s = runProgram ms [] s := rfl

/-- A move of the engine that answers a next state. -/
theorem runProgram_engine {s t : State} (ms : List Mover) (prog : List HostOp)
    (h : engineTurn { s with turns := [] } = .next t) : runProgram (.engine :: ms) prog s = runProgram ms prog t := by
  have hs : step { s with turns := [.engine] } = .next t := h
  cases prog <;> simp only [runProgram, hs]

/-- A move of the host that answers a next state. -/
theorem runProgram_host {s t : State} {op : HostOp} (ms : List Mover) (rest : List HostOp)
    (h : hostAccess op.toAccess { s with turns := [] } = .next t) :
    runProgram (.host :: ms) (op :: rest) s = runProgram ms (afterAccess op rest t) t := by
  have hs : step { s with turns := [.host op.toAccess] } = .next t := h
  simp only [runProgram, hs]

/-- A run of moves `ms ++ ns` is a run of `ms`, then a run of `ns`. -/
theorem runProgram_append {ms : List Mover} (ns : List Mover) {prog prog' : List HostOp} {s t : State}
    (h : runProgram ms prog s = .next (t, prog')) : runProgram (ms ++ ns) prog s = runProgram ns prog' t := by
  induction ms generalizing prog s with
  | nil => cases h; rfl
  | cons m ms ih =>
    cases m with
    | engine =>
      cases hs : step { s with turns := [.engine] } with
      | next u => 
        have hu : engineTurn { s with turns := [] } = .next u := hs
        rw [runProgram_engine ms prog hu] at h
        rw [List.cons_append, runProgram_engine _ prog hu]
        exact ih h
      | fault r => cases prog <;> simp [runProgram, hs] at h
      | refused r => cases prog <;> simp [runProgram, hs] at h
    | host =>
      cases prog with
      | nil => exact ih h
      | cons op rest =>
        cases hs : step { s with turns := [.host op.toAccess] } with
        | next u =>
          have hu : hostAccess op.toAccess { s with turns := [] } = .next u := hs
          rw [runProgram_host ms rest hu] at h
          rw [List.cons_append, runProgram_host _ rest hu]
          exact ih h
        | fault r => simp [runProgram, hs] at h
        | refused r => simp [runProgram, hs] at h

/-- POLL goes on exactly while the value read does not show DONE: the read of STATUS shows the stored bit. -/
theorem readShowsDone_status (s : State) (rs : List Reply) : readShowsDone (.word s.status :: rs) = s.done := by
  show s.status.getLsbD 1 = s.done
  unfold State.status
  cases s.busy <;> cases s.done <;> cases s.elen <;> cases s.ebusy <;> cases s.ecmd <;> decide

end Sys2Proof.Machine
end

