-- ==== Sys2Proof/Laws/Padding.lean ====
section
/-! SUPPORT. Bit sequences (00_scope.md R13): the length, the bits and the value of BE, of MsgBits and of a concatenation, and the
zero fill as an integer remainder. The claims about the padded sequence cite these. -/

namespace Sys2Proof.Machine

/-- BE(n, v) has n bits. -/
@[simp] theorem beBits_length (n v : Nat) : (beBits n v).length = n := by simp [beBits]

/-- Bit j of BE(n, v) is bit n − 1 − j of v. -/
theorem beBits_getElem (n v j : Nat) (h : j < (beBits n v).length) : (beBits n v)[j] = v.testBit (n - 1 - j) := by
  simp [beBits]

/-- BE with one bit more: the last bit is the least significant. -/
theorem beBits_succ (n v : Nat) : beBits (n + 1) v = beBits n (v / 2) ++ [v.testBit 0] := by
  apply List.ext_getElem
  · simp
  · intro i h1 h2
    rw [List.getElem_append, beBits_getElem]
    split
    · next h =>
      rw [beBits_length] at h
      rw [beBits_getElem, Nat.testBit_div_two]
      congr 1
      omega
    · next h =>
      rw [beBits_length] at h h1
      have hi : i = n := by omega
      subst hi
      simp

/-- UINT of a sequence with one bit more at its end. -/
theorem uint_concat (l : List Bool) (b : Bool) : uint (l ++ [b]) = 2 * uint l + b.toNat := by simp [uint]

/-- UINT of a concatenation. -/
theorem uint_append (l r : List Bool) : uint (l ++ r) = uint l * 2 ^ r.length + uint r := by
  induction r using List.reverseRecOn with
  | nil => simp [uint]
  | append_singleton r b ih =>
    rw [← List.append_assoc, uint_concat, uint_concat, ih, List.length_append, List.length_singleton, Nat.pow_succ]
    ring

/-- UINT(BE(n, v)) = v mod 2^n. -/
theorem uint_beBits (n v : Nat) : uint (beBits n v) = v % 2 ^ n := by
  induction n generalizing v with
  | zero => simp [beBits, uint, Nat.mod_one]
  | succ n ih =>
    have hb : (decide (v % 2 = 1)).toNat = v % 2 := by
      rcases Nat.mod_two_eq_zero_or_one v with h | h <;> simp [h]
    rw [beBits_succ, uint_concat, ih, Nat.testBit_zero, hb, Nat.pow_succ, Nat.mul_comm (2 ^ n) 2, Nat.mod_mul]
    omega

/-- Bit j of a concatenation of bytes is bit j mod 8 of byte j div 8. -/
theorem getElem?_flatMap_bytes {α : Type} (f : α → List Bool) (hf : ∀ a, (f a).length = 8) (l : List α) (j : Nat) :
    (l.flatMap f)[j]? = (l[j / 8]?).bind (fun a => (f a)[j % 8]?) := by
  induction l generalizing j with
  | nil => simp
  | cons a l ih =>
    rw [List.flatMap_cons, List.getElem?_append, hf]
    split
    · next h => simp [Nat.div_eq_of_lt h, Nat.mod_eq_of_lt h]
    · next h =>
      have h1 : j / 8 = (j - 8) / 8 + 1 := by omega
      have h2 : j % 8 = (j - 8) % 8 := by omega
      rw [ih, h1, h2, List.getElem?_cons_succ]

/-- MsgBits has eight bits a byte (40_padding.md R120). -/
@[simp] theorem msgBits_length (m : List Byte) : (msgBits m).length = 8 * m.length := by
  induction m with
  | nil => rfl
  | cons v m ih => simp [msgBits] at *; omega

/-- Bit j of MsgBits: byte j div 8, most significant bit first (40_padding.md R120). -/
theorem msgBits_getElem? (m : List Byte) (j : Nat) (h : j < 8 * m.length) :
    (msgBits m)[j]? = some ((listByte m (j / 8)).getLsbD (7 - j % 8)) := by
  have hq : j / 8 < m.length := by omega
  have h8 : j % 8 < (beBits 8 (m[j / 8]).toNat).length := by rw [beBits_length]; omega
  rw [msgBits, getElem?_flatMap_bytes _ (fun a => by simp), List.getElem?_eq_getElem hq]
  show (beBits 8 (m[j / 8]).toNat)[j % 8]? = _
  rw [List.getElem?_eq_getElem h8, beBits_getElem, listByte, List.getD_eq_getElem?_getD, List.getElem?_eq_getElem hq]
  rfl

/-- z = (447 − L) mod 512 as an integer (40_padding.md R122). -/
theorem zeroFill_spec (bitLen : Nat) : (zeroFill bitLen : Int) = (447 - (bitLen : Int)) % 512 := by
  unfold zeroFill
  exact Int.toNat_of_nonneg (Int.emod_nonneg _ (by decide))

/-- What the padding unit makes of a message that was written: the free bytes play no part (40_padding.md R127). -/
theorem padByte_message {s : State} {m : Message} (hM : s.MessageIs m) (q : Nat) :
    padByte s.messageByte m.len q = padByte (listByte m.val) m.len q := by
  unfold padByte
  split
  · next h =>
    have hq : q < m.val.length := h
    rw [messageByte_written (hM.2 q m.val[q] (by simp [hq]))]
    simp [listByte, hq]
  · rfl

end Sys2Proof.Machine
end

