-- ==== Sys2Proof/Laws/PerInstr.lean ====
section
/-! SUPPORT. What holds of every instruction as syntax, one lemma per constructor. -/

/-! The family `EncodedFormat`: the format of an instruction's word goes with its agent (30_encoding.md R90, R91, R93): a host
command is a format C word whose reserved field is zero; a micro-operation is a format U word whose PHASE is in 0..5, and its STEP
is at most 79. -/

/-- The statement of the family `EncodedFormat` about one instruction. -/
def Sys2Proof.Laws.EncodedFormat.Statement (i : Sys2Proof.Instr) : Prop :=
  i.wellFormed = true →
    match Sys2Proof.encode i with
    | .command w => i.byHost = true ∧ Sys2Proof.cmdReserved w = 0#30
    | .control cw => i.byHost = false ∧ (Sys2Proof.cwPhase cw).toNat ≤ 5 ∧ (Sys2Proof.cwStep cw).toNat ≤ 79

namespace Sys2Proof.Laws.EncodedFormat

open Sys2Proof.Machine

theorem nop : Statement .nop := fun _ => ⟨rfl, by decide⟩

theorem start : Statement .start := fun _ => ⟨rfl, by decide⟩

theorem clrerr : Statement .clrerr := fun _ => ⟨rfl, by decide⟩

theorem wait : Statement .wait := fun _ => ⟨rfl, by decide, by decide⟩

theorem ldblk : Statement .ldblk := fun _ => ⟨rfl, by decide, by decide⟩

theorem perm : Statement .perm := fun _ => ⟨rfl, by decide, by decide⟩

theorem seed : Statement .seed := fun _ => ⟨rfl, by decide, by decide⟩

theorem stepF1 (i : BitVec 7) : Statement (.stepF1 i) := fun h => by
  have h' : i.toNat ≤ 16 := of_decide_eq_true h
  exact ⟨rfl, by simp, by simp; omega⟩

theorem stepF2 (i : BitVec 7) : Statement (.stepF2 i) := fun h => by
  have h' : 17 ≤ i.toNat ∧ i.toNat ≤ 32 := of_decide_eq_true h
  exact ⟨rfl, by simp, by simp; omega⟩

theorem stepF3 (i : BitVec 7) : Statement (.stepF3 i) := fun h => by
  have h' : 33 ≤ i.toNat ∧ i.toNat ≤ 47 := of_decide_eq_true h
  exact ⟨rfl, by simp, by simp; omega⟩

theorem stepF4 (i : BitVec 7) : Statement (.stepF4 i) := fun h => by
  have h' : 48 ≤ i.toNat ∧ i.toNat ≤ 63 := of_decide_eq_true h
  exact ⟨rfl, by simp, by simp; omega⟩

theorem stepF5 (i : BitVec 7) : Statement (.stepF5 i) := fun h => by
  have h' : 64 ≤ i.toNat ∧ i.toNat ≤ 79 := of_decide_eq_true h
  exact ⟨rfl, by simp, by simp; omega⟩

theorem accum : Statement .accum := fun _ => ⟨rfl, by decide, by decide⟩

end Sys2Proof.Laws.EncodedFormat
end

