-- ==== Sys2Proof/Laws/Run.lean ====
section
/-! SUPPORT. Runs of a machine, cut into steps and into pieces; stated for any `Host.Core`, then for this one. -/

namespace Sys2Proof.Machine

/-- A run whose first step answers a next state goes on from there. -/
theorem coreRun_next (M : Host.Core) {s t : M.State} (k : Nat) (h : M.step s = .next t) : M.run (k + 1) s = M.run k t := by
  rw [Host.Core.run, h]

/-- A run that answers a next state took a first step. -/
theorem coreRun_first (M : Host.Core) {s t : M.State} {k : Nat} (h : M.run (k + 1) s = .next t) :
    ∃ u, M.step s = .next u ∧ M.run k u = .next t := by
  cases hs : M.step s with
  | next u => exact ⟨u, rfl, (coreRun_next M k hs).symm.trans h⟩
  | fault r => rw [Host.Core.run, hs] at h; cases h
  | refused r => rw [Host.Core.run, hs] at h; cases h

/-- A run of k + n steps is a run of k, then a run of n. -/
theorem coreRun_append (M : Host.Core) {k : Nat} (n : Nat) {s t : M.State} (h : M.run k s = .next t) :
    M.run (k + n) s = M.run n t := by
  induction k generalizing s with
  | zero => cases h; rw [Nat.zero_add]
  | succ k ih =>
    rw [Nat.succ_add]
    obtain ⟨u, hs, hu⟩ := coreRun_first M h
    rw [coreRun_next M _ hs]
    exact ih hu

theorem run_next {s t : State} (k : Nat) (h : step s = .next t) : Host.Core.run core (k + 1) s = Host.Core.run core k t :=
  coreRun_next core k h

theorem run_first {s t : State} {k : Nat} (h : Host.Core.run core (k + 1) s = .next t) :
    ∃ u, step s = .next u ∧ Host.Core.run core k u = .next t :=
  coreRun_first core h

theorem run_append {k : Nat} (n : Nat) {s t : State} (h : Host.Core.run core k s = .next t) :
    Host.Core.run core (k + n) s = Host.Core.run core n t :=
  coreRun_append core n h

/-- One step more at the end of a run. -/
theorem run_snoc {k : Nat} {s t u : State} (h : Host.Core.run core k s = .next t) (hu : step t = .next u) :
    Host.Core.run core (k + 1) s = .next u :=
  (run_append 1 h).trans (run_next 0 hu)

end Sys2Proof.Machine
end

