-- ==== Sys2Proof/Tests/Slice0.lean ====
section
/-! SUPPORT. The author's own tests: the well-formedness checks, words written out from the spec's encodings, one step of every
instruction, vectors of 95_test_vectors.md, and one witness for the hypotheses of every statement that has some. Each expected
value comes from the spec's text. -/

namespace Sys2Proof.Tests

open Sys2Proof Sys2Proof.Machine

/-! ## Small states -/

/-- The state after reset, of an engine with configuration `cfg`. -/
def idle (cfg : Cfg) : State := { State.reset with cfg := cfg }

/-- TESTCFG, in the phase and at the step given, with a message of `n` bytes of which none was written. -/
def at_ (phase : BitVec 3) (i : BitVec 7) (n : Nat) : State :=
  { idle testCfg with phase := phase, stepIdx := i, mlen := BitVec.ofNat 64 n }

/-- The message "abc" of 95_test_vectors.md section 3. -/
def abc : Message := ⟨[0x61#8, 0x62#8, 0x63#8], by decide⟩

/-- REFCFG with "abc" in the buffer and its length in MLEN, in the phase given. -/
def abcAt (phase : BitVec 3) : State :=
  { idle refCfg with phase := phase, mlen := 3#64, msg := [(0, 0x61#8), (1, 0x62#8), (2, 0x63#8)] }

/-- The registers that ST-1 to ST-5 start from. -/
def regs : Five := ⟨0x67452301, 0xEFCDAB89, 0x98BADCFE, 0x10325476, 0xC3D2E1F0⟩

/-- What holds of the next state, if there is one. -/
def nextHas (r : Result) (p : State → Bool) : Bool :=
  match r with
  | .next t => p t
  | .fault _ => false
  | .refused _ => false

/-- What holds of the state and the rest of a host program, if no move stopped. -/
def programHas (r : Host.Outcome (State × List HostOp) Fault Refusal) (p : State → List HostOp → Bool) : Bool :=
  match r with
  | .next (t, rest) => p t rest
  | .fault _ => false
  | .refused _ => false

def faults (r : Result) (f : Fault) : Bool :=
  match r with
  | .next _ => false
  | .fault g => decide (g = f)
  | .refused _ => false

def refuses (r : Result) (q : Refusal) : Bool :=
  match r with
  | .next _ => false
  | .fault _ => false
  | .refused p => decide (p = q)

/-! ## Well-formedness: each range refuses an index just outside it (30_encoding.md R94) -/

theorem test_wf_f1 : Instr.wellFormed (.stepF1 17#7) = false := by decide
theorem test_wf_f2_low : Instr.wellFormed (.stepF2 16#7) = false := by decide
theorem test_wf_f2_high : Instr.wellFormed (.stepF2 33#7) = false := by decide
theorem test_wf_f3_low : Instr.wellFormed (.stepF3 32#7) = false := by decide
theorem test_wf_f3_high : Instr.wellFormed (.stepF3 48#7) = false := by decide
theorem test_wf_f4_low : Instr.wellFormed (.stepF4 47#7) = false := by decide
theorem test_wf_f4_high : Instr.wellFormed (.stepF4 64#7) = false := by decide
theorem test_wf_f5_low : Instr.wellFormed (.stepF5 63#7) = false := by decide
theorem test_wf_f5_high : Instr.wellFormed (.stepF5 80#7) = false := by decide

/-! ## Decoding of words written out from 30_encoding.md R91, R93, R94, R99, R100 -/

theorem test_decode_nop : decodeTableWord 32 0x00000000 = some .nop := by decide
theorem test_decode_start : decodeTableWord 32 0x00000001 = some .start := by decide
theorem test_decode_clrerr : decodeTableWord 32 0x00000002 = some .clrerr := by decide
theorem test_decode_reserved_code : decodeTableWord 32 0x00000003 = none := by decide
theorem test_decode_reserved_bit : decodeTableWord 32 0x00000005 = none := by decide
theorem test_decode_wait : decodeTableWord 16 0b0000000000 = some .wait := by decide
theorem test_decode_wait_step_ignored : decodeTableWord 16 0b0001111111 = some .wait := by decide
theorem test_decode_ldblk : decodeTableWord 16 0b0010000000 = some .ldblk := by decide
theorem test_decode_perm : decodeTableWord 16 0b0100000000 = some .perm := by decide
theorem test_decode_seed : decodeTableWord 16 0b0110000000 = some .seed := by decide
theorem test_decode_f1_first : decodeTableWord 16 0b1000000000 = some (.stepF1 0#7) := by decide
theorem test_decode_f1_last : decodeTableWord 16 0b1000010000 = some (.stepF1 16#7) := by decide
theorem test_decode_f2_first : decodeTableWord 16 0b1000010001 = some (.stepF2 17#7) := by decide
theorem test_decode_f2_last : decodeTableWord 16 0b1000100000 = some (.stepF2 32#7) := by decide
theorem test_decode_f3_first : decodeTableWord 16 0b1000100001 = some (.stepF3 33#7) := by decide
theorem test_decode_f3_last : decodeTableWord 16 0b1000101111 = some (.stepF3 47#7) := by decide
theorem test_decode_f4_first : decodeTableWord 16 0b1000110000 = some (.stepF4 48#7) := by decide
theorem test_decode_f4_last : decodeTableWord 16 0b1000111111 = some (.stepF4 63#7) := by decide
theorem test_decode_f5_first : decodeTableWord 16 0b1001000000 = some (.stepF5 64#7) := by decide
theorem test_decode_f5_last : decodeTableWord 16 0b1001001111 = some (.stepF5 79#7) := by decide
theorem test_decode_step_80 : decodeTableWord 16 0b1001010000 = none := by decide
theorem test_decode_accum : decodeTableWord 16 0b1010000000 = some .accum := by decide
theorem test_decode_phase_6 : decodeTableWord 16 0b1100000000 = none := by decide
theorem test_decode_phase_7 : decodeTableWord 16 0b1111111111 = none := by decide
theorem test_decode_too_wide : decodeTableWord 16 0x600 = none := by decide

/-! ## A placed word runs as the first instruction after reset -/

theorem test_run_commands :
    nextHas (step (State.reset.withFetchWord 32 0x0)) (fun t => t.phase = 0#3) ∧
    nextHas (step (State.reset.withFetchWord 32 0x1)) (fun t => t.phase = 1#3) ∧
    nextHas (step (State.reset.withFetchWord 32 0x2)) (fun t => t.status = 0#32) := by decide

theorem test_run_micro_operations :
    nextHas (step (State.reset.withFetchWord 16 0x000)) (fun t => t.phase = 0#3) ∧
    nextHas (step (State.reset.withFetchWord 16 0x080)) (fun t => t.phase = 2#3) ∧
    nextHas (step (State.reset.withFetchWord 16 0x100)) (fun t => t.phase = 3#3) ∧
    nextHas (step (State.reset.withFetchWord 16 0x180)) (fun t => t.phase = 4#3) ∧
    nextHas (step (State.reset.withFetchWord 16 0x200)) (fun t => t.stepIdx = 1#7) ∧
    nextHas (step (State.reset.withFetchWord 16 0x211)) (fun t => t.stepIdx = 18#7) ∧
    nextHas (step (State.reset.withFetchWord 16 0x221)) (fun t => t.stepIdx = 34#7) ∧
    nextHas (step (State.reset.withFetchWord 16 0x230)) (fun t => t.stepIdx = 49#7) ∧
    nextHas (step (State.reset.withFetchWord 16 0x24F)) (fun t => t.phase = 5#3) ∧
    nextHas (step (State.reset.withFetchWord 16 0x280)) (fun t => t.done) := by decide

/-! ## Host commands and accesses (95_test_vectors.md section 9) -/

/-- HC-3. -/
theorem test_reserved_sets_ecmd :
    nextHas (hostAccess (.wr 0x00 3#32) (idle testCfg)) (fun t => t.status = 0x10#32) = true := by decide

/-- HC-7: MLEN = 257 > 256. -/
theorem test_start_too_long : nextHas (exec .start (at_ 0#3 0#7 257)) (fun t => t.status = 0x04#32) = true := by decide

/-- HC-12: a START with ELEN still set. -/
theorem test_start_accepted : nextHas (exec .start { at_ 0#3 0#7 0 with elen := true })
    (fun t => t.status = 0x05#32 ∧ t.h = ⟨0x11111111, 0x22222222, 0x33333333, 0x44444444, 0x55555555⟩) = true := by decide

/-- HC-17: CLRERR during a run. -/
theorem test_clrerr_in_run : nextHas (exec .clrerr { at_ 3#3 0#7 0 with elen := true, ebusy := true })
    (fun t => t.status = 0x01#32) = true := by decide

/-- HC-18: a reserved value during a run raises ECMD, not EBUSY. -/
theorem test_reserved_in_run :
    nextHas (hostAccess (.wr 0x00 7#32) (at_ 3#3 0#7 0)) (fun t => t.status = 0x11#32) = true := by decide

/-- HC-14. -/
theorem test_wrb_in_run : nextHas (hostAccess (.wrb 0 0x41#8) { at_ 3#3 0#7 0 with elen := true })
    (fun t => t.status = 0x0D#32 ∧ t.msg = []) = true := by decide

/-- HC-9: MLEN = 2^32 + 256. -/
theorem test_mlen_hi : nextHas (hostAccess (.wr 0x0C 1#32) (at_ 0#3 0#7 256)) (fun t => t.mlen = 4294967552#64) = true := by decide

/-- HC-22. -/
theorem test_rd_digest1 : nextHas (hostAccess (.rd 0x14) { idle zeroCfg with
    done := true, h := ⟨0x807FFC00, 0x7FC07FFF, 0x808F7C00, 0x40FFFC00, 0x3EF00000⟩ })
    (fun t => t.replies = [.word 0x7FC07FFF#32]) = true := by decide

/-- HC-26: a reset during a run. -/
theorem test_reset_in_run : nextHas (step { at_ 4#3 9#7 3 with turns := [.reset], elen := true })
    (fun t => t.status = 0#32 ∧ t.mlen = 0#64) = true := by decide

/-- Where the machine has no step (20_memory.md R66, 30_encoding.md R94, R100). -/
theorem test_stops :
    refuses (hostAccess (.wr 0x24 0#32) (idle testCfg)) .outsideEngine ∧
    refuses (hostAccess (.wrb 256 0#8) (idle testCfg)) .outsideEngine ∧
    faults (exec (.stepF1 17#7) (at_ 4#3 17#7 3)) .notSelected ∧
    faults (exec (.stepF1 2#7) (at_ 4#3 1#7 3)) .notSelected ∧
    faults (engineTurn (at_ 4#3 80#7 3)) .reservedControlWord := by decide

/-- A state that breaks 10_state.md R50 (3), by BLK or by MLEN, or (4) has no behaviour; a reset has its effect there too
(70_reset_and_hazards.md R310). -/
theorem test_broken_invariants :
    refuses (exec .perm { at_ 2#3 0#7 55 with blk := 1#56 }) .outsideInvariants ∧
    refuses (exec (.stepF1 9#7) (at_ 4#3 9#7 257)) .outsideInvariants ∧
    refuses (exec .accum { at_ 5#3 79#7 55 with done := true }) .outsideInvariants ∧
    refuses (exec .clrerr (at_ 6#3 0#7 0)) .outsideInvariants ∧
    refuses (hostAccess (.rd 0x04) (at_ 4#3 80#7 0)) .outsideInvariants ∧
    nextHas (step { at_ 7#3 0#7 3 with turns := [.reset] }) (fun t => t.phase = 0#3) := by decide

/-! ## Micro-operations -/

/-- 95_test_vectors.md section 3: block 0 of "abc". -/
theorem test_ldblk_abc : nextHas (exec .ldblk (abcAt 1#3)) (fun t => t.x = #v[0x61626380, 0, 0, 0, 0, 0, 0, 0, 0, 0, 0, 0, 0, 0, 0, 0x18]) =
    true := by decide

/-- 95_test_vectors.md section 3: block 1 of a 56-byte message. -/
theorem test_ldblk_second_block : nextHas (exec .ldblk { at_ 1#3 0#7 56 with blk := 1#56 })
    (fun t => t.x = #v[0, 0, 0, 0, 0, 0, 0, 0, 0, 0, 0, 0, 0, 0, 0, 0x1C0]) = true := by decide

/-- RHO-1. -/
theorem test_perm_rho : nextHas (exec .perm { at_ 2#3 0#7 0 with x := #v[0, 1, 2, 3, 4, 5, 6, 7, 8, 9, 10, 11, 12, 13, 14, 15] })
    (fun t => t.w = #v[7, 4, 13, 1, 10, 6, 15, 3, 12, 0, 9, 5, 2, 14, 11, 8]) = true := by decide

/-- SEED-1. -/
theorem test_seed : nextHas (exec .seed { at_ 3#3 9#7 0 with h := regs })
    (fun t => t.work = regs ∧ t.h = regs ∧ t.stepIdx = 0#7) = true := by decide

/-- ST-1. -/
theorem test_st1 : stepRegs f1 0x61626380 0x00000000 11 regs =
    ⟨0xC3D2E1F0, 0x291EF1F0, 0xEFCDAB89, 0xEB73F800, 0x10325476⟩ := by decide

/-- ST-2. -/
theorem test_st2 : stepRegs f2 0x61626380 0x5A827999 7 regs =
    ⟨0xC3D2E1F0, 0xB6416DF0, 0xEFCDAB89, 0xEB73F800, 0x10325476⟩ := by decide

/-- ST-3. -/
theorem test_st3 : stepRegs f3 0x61626380 0x6ED9EBA1 11 regs =
    ⟨0xC3D2E1F0, 0xCF63E9F0, 0xEFCDAB89, 0xEB73F800, 0x10325476⟩ := by decide

/-- ST-4. -/
theorem test_st4 : stepRegs f4 0x61626380 0x8F1BBCDC 11 regs =
    ⟨0xC3D2E1F0, 0x223209F0, 0xEFCDAB89, 0xEB73F800, 0x10325476⟩ := by decide

/-- ST-5. -/
theorem test_st5 : stepRegs f5 0x61626380 0xA953FD4E 9 regs =
    ⟨0xC3D2E1F0, 0x1F836BF0, 0xEFCDAB89, 0xEB73F800, 0x10325476⟩ := by decide

/-- 95_test_vectors.md section 6, lookup at i = 16 under TESTCFG. -/
theorem test_lookup_16 : shiftAmount testCfg (roundSel 16) 16 = 0 ∧ roundConstant testCfg (roundSel 16) 16 = 0x10020002 := by decide

/-- 95_test_vectors.md section 6, lookup at i = 32 under TESTCFG. -/
theorem test_lookup_32 : shiftAmount testCfg (roundSel 32) 32 = 3 ∧ roundConstant testCfg (roundSel 32) 32 = 0x20030003 := by decide

/-- 95_test_vectors.md section 6, lookup at i = 79 under TESTCFG. -/
theorem test_lookup_79 : shiftAmount testCfg (roundSel 79) 79 = 3 ∧ roundConstant testCfg (roundSel 79) 79 = 0x50050005 := by decide

/-- 95_test_vectors.md section 6, STEP.F1 1 of block 0 of "abc" under REFCFG: W[14] = 0, s = 14. -/
theorem test_step_f1_1 : nextHas (exec (.stepF1 1#7)
    { abcAt 4#3 with stepIdx := 1#7, work := ⟨0xC3D2E1F0, 0x1602F1F0, 0xEFCDAB89, 0xEB73F800, 0x10325476⟩ })
    (fun t => t.work = ⟨0x10325476, 0xF14C9476, 0x1602F1F0, 0x36AE2400, 0xEB73F800⟩ ∧ t.stepIdx = 2#7) = true := by decide

/-- AC-1, in the last block. -/
theorem test_accum_last : nextHas (exec .accum { abcAt 5#3 with
    h := regs, work := ⟨0xC3D2E1F0, 0x291EF1F0, 0xEFCDAB89, 0xEB73F800, 0x10325476⟩ })
    (fun t => t.h = ⟨0x2B1804F1, 0x18EC9D79, 0x88888887, 0xFBA64C76, 0xD4053666⟩ ∧ t.done ∧ t.phase = 0#3) = true := by decide

/-- SEQ-2: ACCUM 0 of a 56-byte message goes to LDBLK with BLK = 1. -/
theorem test_accum_next_block : nextHas (exec .accum (at_ 5#3 79#7 56))
    (fun t => t.blk = 1#56 ∧ t.phase = 1#3 ∧ t.done = false) = true := by decide

/-! ## Output and host programs -/

/-- HX-1. -/
theorem test_hex : String.ofList (digestText ⟨0x0000000A, 0xB0000000, 0x00C0FFEE, 0xFFFFFFFF, 0x00000000⟩) =
    "0000000ab000000000c0ffeeffffffff00000000" := by decide

/-- PAD-56 and PAD-55. -/
theorem test_pad_corner : paddedLength 56 = 1024 ∧ paddedLength 55 = 512 ∧ numBlocks 56 = 2 := by decide

/-- 30_encoding.md R105: `WRLEN n` at n = 2^32 + 5. -/
theorem test_wrlen : Pseudo.expand (.wrLen 4294967301) = [.access (.wr 0x08 5#32), .access (.wr 0x0C 1#32)] := by decide

/-- 30_encoding.md R105: POLL goes on while the value read has bit 1 clear, and ends when it is set. -/
theorem test_poll :
    programHas (runProgram [.host] Pseudo.poll.expand (at_ 3#3 0#7 0)) (fun _ rest => rest = [.pollUntilDone]) ∧
    programHas (runProgram [.host] Pseudo.poll.expand { idle testCfg with done := true })
      (fun t rest => rest = [] ∧ t.replies = [.word 2#32]) := by decide

/-- 30_encoding.md R106. -/
theorem test_trace_line : traceLine (1, .stepF3 40#7) = "STEP.F3 40" := by decide

/-! ## Witnesses: for every statement with hypotheses, a state and operands that meet them, one for each clause -/

/-- `Legal` of a concrete state, field by field. -/
theorem legal_busy : Legal (at_ 4#3 79#7 256) :=
  ⟨by decide, by decide, by decide, by decide, by decide, by decide, by decide⟩

theorem message_abc (p : BitVec 3) : (abcAt p).MessageIs abc := by
  refine ⟨rfl, fun q v h => ?_⟩
  match q, h with
  | 0, h => exact h
  | 1, h => exact h
  | 2, h => exact h
  | n + 3, h => exact absurd h (by simp [abc])

theorem witness_NopChangesNothing : (at_ 4#3 79#7 256).lawful = true := by decide

theorem witness_ClrerrClearsTheErrorFlags : (at_ 4#3 79#7 256).lawful = true := by decide

theorem witness_MlenWriteStoresItsHalfOrRaisesEbusy : (idle testCfg).lawful = true ∧ (at_ 1#3 0#7 0).lawful = true := by decide

/-- One state for each of START's three outcomes, at MLEN = MSG_BYTES and MLEN = MSG_BYTES + 1. -/
theorem witness_StartChecksThenStartsARun :
    (at_ 5#3 79#7 0).lawful = true ∧ (at_ 5#3 79#7 0).phase ≠ 0#3 ∧
    (at_ 0#3 0#7 257).lawful = true ∧ (at_ 0#3 0#7 256).lawful = true ∧
    (at_ 0#3 0#7 257).phase = 0#3 ∧ (at_ 0#3 0#7 257).cfg.msgBytes.val < (at_ 0#3 0#7 257).mlen.toNat ∧
    (at_ 0#3 0#7 256).phase = 0#3 ∧ ¬ (at_ 0#3 0#7 256).cfg.msgBytes.val < (at_ 0#3 0#7 256).mlen.toNat := by decide

theorem witness_ChecksGoInOrderAndRaiseAtMostOneFlag :
    (at_ 3#3 0#7 257).lawful = false ∧ (at_ 3#3 0#7 256).lawful = true ∧
    hostAccess (.wr 0x00 3#32) (idle testCfg) = .next { idle testCfg with ecmd := true } ∧
    hostAccess (.wr 0x0C 5#32) (at_ 1#3 0#7 0) = .next { at_ 1#3 0#7 0 with ebusy := true } ∧
    hostAccess (.wrb 255 0#8) (at_ 1#3 0#7 0) = .next { at_ 1#3 0#7 0 with ebusy := true } ∧
    engineTurn (at_ 2#3 0#7 0) = .next { at_ 2#3 0#7 0 with w := permute (at_ 2#3 0#7 0).x, phase := 3#3 } :=
  ⟨by decide, by decide, rfl, rfl, rfl, rfl⟩

theorem witness_MlenHalvesComposeInEitherOrder : (idle testCfg).phase = 0#3 := rfl

theorem witness_MessageWriteStoresOneByteOrRaisesEbusy :
    (idle testCfg).lawful = true ∧ (at_ 1#3 0#7 0).lawful = true ∧ (255 < (idle testCfg).cfg.msgBytes.val ∧ (idle testCfg).phase = 0#3) ∧
    (255 < (at_ 1#3 0#7 0).cfg.msgBytes.val ∧ (at_ 1#3 0#7 0).phase ≠ 0#3) := by decide

theorem witness_StatusReadsItsFiveFlags :
    (at_ 4#3 79#7 256).lawful = true ∧ ({ abcAt 0#3 with done := true } : State).lawful = true := by decide

theorem witness_DigestReadsTheChainingRegisterWhenDone :
    (({ idle testCfg with done := true } : State).lawful = true ∧ ({ idle testCfg with done := true } : State).done = true) ∧
    ((idle testCfg).lawful = true ∧ (idle testCfg).done = false) := by decide

theorem witness_OtherReadsReturnWhatIsStored :
    (abcAt 0#3).lawful = true ∧ 255 < (abcAt 0#3).cfg.msgBytes.val ∧ Memory.read (abcAt 0#3).msg 2 = some 0x63#8 ∧ Memory.read (abcAt 0#3).msg 255 = none := by decide

theorem witness_WritesToReadOnlyRegistersAreIgnored :
    (at_ 1#3 0#7 0).lawful = true ∧ 0x04 ∈ [0x04, 0x10, 0x14, 0x18, 0x1C, 0x20] ∧ 0x20 ∈ [0x04, 0x10, 0x14, 0x18, 0x1C, 0x20] := by decide

theorem witness_ReadsHaveNoSideEffect :
    hostAccess (.rd 0x20) (idle testCfg) = .next (replyFreeWord (idle testCfg)) ∧
    hostAccess (.rdb 255) (idle testCfg) = .next (replyFreeByte 255 (idle testCfg)) := ⟨rfl, rfl⟩

theorem witness_OnlyAccessesOutsideTheEngineAreRefused :
    (at_ 1#3 0#7 0).lawful = true ∧ Access.inMap 256 (.wrb 255 0#8) = true ∧ Access.inMap 256 (.wrb 256 0#8) = false ∧
    Access.inMap 256 (.rd 0x20) = true ∧ Access.inMap 256 (.rd 0x24) = false ∧ Access.inMap 256 (.wr 0x02 0#32) = false := by decide

theorem witness_AccessTriplesRoundTrip :
    Access.inMap 256 (.wr 0x20 0xFFFFFFFF#32) = true ∧
    accessOf 256 ⟨true, .msg, 255, some 255⟩ = some (.wrb 255 255#8) ∧ accessOf 256 ⟨true, .msg, 255, some 256⟩ = none := by decide

/-- A lawful state in a run, and one that breaks R50 (assumption log 21). -/
theorem witness_ResetInAnyStateIsOneStep :
    (({ at_ 4#3 9#7 3 with turns := [.reset] } : State).turns = .reset :: [] ∧ (at_ 4#3 9#7 3).lawful = true) ∧
    (({ at_ 7#3 0#7 3 with turns := [.reset] } : State).turns = .reset :: [] ∧ (at_ 7#3 0#7 3).lawful = false) := by decide

theorem witness_WaitInIdleChangesNothing : (idle testCfg).phase = 0#3 ∧ (idle testCfg).turns = [] := ⟨rfl, rfl⟩

/-- The first block of an empty message, and the last of one that fills the buffer. -/
theorem witness_LdblkLoadsTheWordsOfTheBlock :
    ((at_ 1#3 0#7 0).lawful = true ∧ (at_ 1#3 0#7 0).phase = 1#3 ∧ (0 : MsgLen).val = (at_ 1#3 0#7 0).mlen.toNat) ∧
    (({ at_ 1#3 0#7 256 with blk := 4#56 } : State).lawful = true ∧ (at_ 1#3 0#7 256).phase = 1#3 ∧
      (256 : MsgLen).val = (at_ 1#3 0#7 256).mlen.toNat) := by decide

theorem witness_LdblkWordsSpellThePaddedMessage :
    (abcAt 1#3).lawful = true ∧ (abcAt 1#3).phase = 1#3 ∧ (abcAt 1#3).MessageIs abc := ⟨by decide, rfl, message_abc _⟩

theorem witness_PermPermutesIntoW : (at_ 2#3 0#7 0).lawful = true ∧ (at_ 2#3 0#7 0).phase = 2#3 := by decide

theorem witness_SeedCopiesTheChainingRegisters : (at_ 3#3 0#7 0).lawful = true ∧ (at_ 3#3 0#7 0).phase = 3#3 := by decide

theorem witness_StepF1Result : (at_ 4#3 0#7 0).lawful = true ∧ (at_ 4#3 16#7 0).lawful = true ∧ (at_ 4#3 0#7 0).phase = 4#3 ∧ (at_ 4#3 0#7 0).stepIdx = 0#7 ∧ (0#7).toNat ≤ 16 ∧
    (at_ 4#3 16#7 0).stepIdx = 16#7 ∧ (16#7).toNat ≤ 16 := by decide

theorem witness_StepF2Result : (at_ 4#3 17#7 0).lawful = true ∧ (at_ 4#3 32#7 0).lawful = true ∧ (at_ 4#3 17#7 0).phase = 4#3 ∧ (at_ 4#3 17#7 0).stepIdx = 17#7 ∧
    17 ≤ (17#7).toNat ∧ (17#7).toNat ≤ 32 ∧ 17 ≤ (32#7).toNat ∧ (32#7).toNat ≤ 32 := by decide

theorem witness_StepF3Result : (at_ 4#3 33#7 0).lawful = true ∧ (at_ 4#3 47#7 0).lawful = true ∧ (at_ 4#3 33#7 0).phase = 4#3 ∧ (at_ 4#3 33#7 0).stepIdx = 33#7 ∧
    33 ≤ (33#7).toNat ∧ (33#7).toNat ≤ 47 ∧ 33 ≤ (47#7).toNat ∧ (47#7).toNat ≤ 47 := by decide

theorem witness_StepF4Result : (at_ 4#3 48#7 0).lawful = true ∧ (at_ 4#3 63#7 0).lawful = true ∧ (at_ 4#3 48#7 0).phase = 4#3 ∧ (at_ 4#3 48#7 0).stepIdx = 48#7 ∧
    48 ≤ (48#7).toNat ∧ (48#7).toNat ≤ 63 ∧ 48 ≤ (63#7).toNat ∧ (63#7).toNat ≤ 63 := by decide

/-- Below 79, and at 79 where the next phase is ACCUM. -/
theorem witness_StepF5Result : (at_ 4#3 64#7 0).lawful = true ∧ (at_ 4#3 79#7 0).lawful = true ∧ (at_ 4#3 64#7 0).phase = 4#3 ∧ (at_ 4#3 64#7 0).stepIdx = 64#7 ∧
    64 ≤ (64#7).toNat ∧ (64#7).toNat ≤ 79 ∧ (at_ 4#3 79#7 0).stepIdx = 79#7 ∧ 64 ≤ (79#7).toNat ∧ (79#7).toNat ≤ 79 := by decide

/-- A block with another to follow, and the last one. -/
theorem witness_AccumAddsAndMovesOn :
    ((at_ 5#3 79#7 56).lawful = true ∧ (at_ 5#3 79#7 56).phase = 5#3 ∧
      (at_ 5#3 79#7 56).blk.toNat + 1 < numBlocks (at_ 5#3 79#7 56).mlen.toNat) ∧
    ((at_ 5#3 79#7 55).lawful = true ∧ (at_ 5#3 79#7 55).phase = 5#3 ∧
      (at_ 5#3 79#7 55).blk.toNat + 1 = numBlocks (at_ 5#3 79#7 55).mlen.toNat) := by decide

theorem witness_RoundPhaseRunsTheSelectedStep :
    ((at_ 4#3 78#7 0).lawful = true ∧ (at_ 4#3 78#7 0).phase = 4#3 ∧ (at_ 4#3 78#7 0).stepIdx.toNat < 79) ∧
    ((at_ 4#3 79#7 0).lawful = true ∧ (at_ 4#3 79#7 0).phase = 4#3 ∧ (at_ 4#3 79#7 0).stepIdx.toNat = 79) := by decide

theorem witness_MicroOperationRunsOnlyWhenSelected :
    Instr.byHost .perm = false ∧ decodeControl (controlWordOf (at_ 1#3 0#7 0).phase (at_ 1#3 0#7 0).stepIdx) ≠ .instr .perm ∧
    nextHas (exec .perm (at_ 2#3 0#7 0)) (fun _ => true) = true := by decide

/-- States that break R50 (1), (2), (3) by BLK and by MLEN, and (4). -/
theorem witness_BrokenInvariantsHaveNoBehaviour :
    (at_ 6#3 0#7 0).lawful = false ∧ (at_ 4#3 80#7 0).lawful = false ∧
    ({ at_ 2#3 0#7 55 with blk := 1#56 } : State).lawful = false ∧ (at_ 2#3 0#7 257).lawful = false ∧
    ({ at_ 2#3 0#7 0 with done := true } : State).lawful = false ∧
    (at_ 6#3 0#7 0).phase = 6#3 ∧ (at_ 7#3 0#7 0).phase = 7#3 ∧
    ((at_ 4#3 80#7 0).phase = 4#3 ∧ 80 ≤ (at_ 4#3 80#7 0).stepIdx.toNat) ∧ Instr.byHost .accum = false := by decide

theorem witness_EngineStepRunsTheDecodedMicroOperation :
    decodeControl (controlWordOf (at_ 4#3 33#7 0).phase (at_ 4#3 33#7 0).stepIdx) = .instr (.stepF3 33#7) ∧
    (at_ 4#3 33#7 0).turns = [] ∧ ({ at_ 4#3 33#7 0 with turns := [.engine] } : State).turns = .engine :: [] := by decide

theorem witness_CommandStepRunsTheDecodedCommand :
    ({ idle testCfg with turns := [.host (.wr 0x00 1#32)] } : State).turns = .host (.wr 0x00 1#32) :: [] ∧
    decodeCommand 1#32 = .instr .start := by decide

theorem witness_DecodeOfEncodeIsTheInstruction :
    Instr.wellFormed (.stepF1 0#7) = true ∧ Instr.wellFormed (.stepF5 79#7) = true ∧ Instr.wellFormed .start = true := by decide

theorem witness_EncodeOfDecodeIsTheWord :
    decodeCommand 2#32 = .instr .clrerr ∧ decodeControl 0x24F#10 = .instr (.stepF5 79#7) ∧ decodeControl 0x1FF#10 = .instr .seed := by decide

theorem witness_SelectorsComeFromTheBitsOfStep : (79#7).toNat ≤ 79 := by decide

theorem witness_RoundFunctionsFollowTheirTruthTables : 31 < 32 := by decide

theorem witness_ShifterIsAPlainLeftShift : (31 : Fin 32).val ≤ 31 ∧ 31 < 32 := by decide

theorem witness_RoundsOwnTheirSteps : 0 ≤ 79 ∧ 79 ≤ 79 := by decide

theorem padBits_abc_length : (padBits abc).length = 512 := by
  simp only [padBits, List.length_append, List.length_replicate, List.length_singleton, msgBits_length, beBits_length]
  decide

/-- The last message bit, the terminator, the first and the last bit of the length field. -/
theorem witness_PadBitsOnDemandAreThePaddedSequence :
    23 < (padBits abc).length ∧ 24 < (padBits abc).length ∧ 448 < (padBits abc).length ∧ 511 < (padBits abc).length := by
  rw [padBits_abc_length]
  decide

theorem witness_PaddingInvariants :
    8 * abc.val.length < 25 ∧ 447 < (padBits abc).length - 64 ∧ padBits abc = padBits ⟨[0x61#8, 0x62#8, 0x63#8], by decide⟩ :=
  ⟨by decide, by rw [padBits_abc_length]; decide, rfl⟩

theorem witness_StepKeepsTheLegalStates :
    Legal (at_ 4#3 79#7 256) ∧ nextHas (step (at_ 4#3 79#7 256)) (fun t => t.phase = 5#3) = true := ⟨legal_busy, by decide⟩

theorem witness_StepKeepsTheScheduleLoaded :
    ScheduleLoaded (at_ 3#3 0#7 0) ∧ (at_ 3#3 0#7 0).phase = 3#3 ∧
    nextHas (step (at_ 3#3 0#7 0)) (fun t => t.phase = 4#3) = true := ⟨fun _ => by decide, rfl, by decide⟩

theorem witness_LawfulStatesAlwaysStep :
    (at_ 4#3 79#7 256).lawful = true ∧
    State.lawful { abcAt 0#3 with done := true, turns := [.host (.wr 0x00 1#32)] } = true ∧
    State.nextTurnInMap { abcAt 0#3 with done := true, turns := [.host (.wr 0x00 1#32)] } = true := by decide

/-- An ACCUM that changes DONE and PHASE; PHASE leaving IDLE; PHASE returning to it by the last ACCUM, and by a reset. -/
theorem witness_EachRegisterHasItsWriters :
    nextHas (exec .accum (at_ 5#3 79#7 55)) (fun t => t.done ≠ (at_ 5#3 79#7 55).done ∧ t.phase ≠ (at_ 5#3 79#7 55).phase) = true ∧
    nextHas (step { abcAt 0#3 with turns := [.host (.wr 0x00 1#32)] }) (fun t => t.phase ≠ 0#3) = true ∧
    nextHas (step (at_ 5#3 79#7 55)) (fun t => t.phase = 0#3) = true ∧
    nextHas (step { at_ 5#3 79#7 55 with turns := [.reset] }) (fun t => t.phase = 0#3) = true := by decide

/-- DONE rises in the first state and falls in the second. -/
theorem witness_DoneRisesAtTheLastAccumOnly :
    ((at_ 5#3 79#7 55).done = false ∧ nextHas (step (at_ 5#3 79#7 55)) (fun t => t.done) = true) ∧
    nextHas (step { abcAt 0#3 with done := true, turns := [.host (.wr 0x00 1#32)] }) (fun t => !t.done) = true ∧
    nextHas (step { abcAt 0#3 with done := true, turns := [.reset] }) (fun t => !t.done) = true := by decide

theorem witness_HostCannotDisturbARun :
    (at_ 1#3 0#7 0).phase ≠ 0#3 ∧ hostAccess (.wrb 255 0x41#8) (at_ 1#3 0#7 0) = .next { at_ 1#3 0#7 0 with ebusy := true } :=
  ⟨by decide, rfl⟩

/-- A buffer that differs from "abc" at address 3 only. -/
theorem witness_BytesBeyondTheLengthDoNotMatter :
    ∀ a, a < (abcAt 1#3).mlen.toNat →
      Memory.read [(0, 0x61#8), (1, 0x62#8), (2, 0x63#8), (3, 0xFF#8)] a = Memory.read (abcAt 1#3).msg a := by decide

/-- Two lawful states that differ in every working register and agree on the sequencer. -/
theorem witness_ControlFlowIgnoresData :
    (at_ 5#3 79#7 55).lawful = true ∧ ({ at_ 5#3 79#7 55 with work := regs, h := regs } : State).lawful = true ∧
    State.sameControl (at_ 5#3 79#7 55) { at_ 5#3 79#7 55 with work := regs, h := regs } :=
  ⟨by decide, by decide, rfl, rfl, rfl, rfl⟩

/-- The first line of the trace with a START inside the run, and the last one. -/
theorem witness_RunFollowsItsTrace :
    ((abcAt 0#3).phase = 0#3 ∧ (abcAt 0#3).mlen.toNat ≤ (abcAt 0#3).cfg.msgBytes.val) ∧
    ((∀ u ∈ [Turn.host (.wr 0x00 1#32)], u.interleaves (abcAt 0#3).cfg.msgBytes.val = true) ∧
      (runTrace (numBlocks 3))[[Turn.host (.wr 0x00 1#32)].count .engine]? = some (0, .ldblk)) ∧
    ((∀ u ∈ List.replicate 83 Turn.engine, u.interleaves (abcAt 0#3).cfg.msgBytes.val = true) ∧
      (runTrace (numBlocks 3))[(List.replicate 83 Turn.engine).count .engine]? = some (0, .accum) ∧
      (List.replicate 83 Turn.engine).count .engine + 1 = 84 * numBlocks 3) := by decide

/-- A run of "abc" with a write to MLEN_LO and a read of STATUS inside it. -/
theorem witness_RunEndsWithTheDigest :
    (abcAt 0#3).phase = 0#3 ∧ (abcAt 0#3).MessageIs abc ∧ abc.len.val ≤ (abcAt 0#3).cfg.msgBytes.val ∧
    (∀ u ∈ Turn.host (.wr 0x08 9#32) :: Turn.host (.rd 0x04) :: List.replicate 83 Turn.engine,
      u.interleaves (abcAt 0#3).cfg.msgBytes.val = true) ∧
    (Turn.host (.wr 0x08 9#32) :: Turn.host (.rd 0x04) :: List.replicate 83 Turn.engine).count .engine + 1 =
      84 * numBlocks abc.len.val := ⟨rfl, message_abc _, by decide, by decide, by decide⟩

/-- And movers with the engine's turns of one block, polls between them. -/
theorem witness_HostProtocolReturnsTheDigest :
    ((idle refCfg).phase = 0#3 ∧ abc.len.val ≤ (idle refCfg).cfg.msgBytes.val) ∧
    84 * numBlocks abc.val.length ≤ (Mover.host :: Mover.host :: List.replicate 84 Mover.engine).count .engine := by decide

end Sys2Proof.Tests
end

/-! PROOFS of the statements about the architectural state (spec/10_state.md): which states are legal, what each turn changes of
the sequencer, the flags and the message buffer, and what the engine does not see. -/

namespace Sys2Proof.Machine

/-! ## Record equations of the two transitions -/

/-- The ROUND transition as one update of STEP and PHASE (45_sequencer.md R235). -/
theorem roundStep_eq (r : Round) (i : BitVec 7) (s : State) : roundStep r i s =
    { s with
      work := roundRegs s.cfg s.w r i.toNat s.work
      stepIdx := if i.toNat < 79 then i + 1#7 else s.stepIdx
      phase := if i.toNat < 79 then s.phase else Phase.accum } := by
  by_cases hi : i.toNat < 79
  · rw [roundStep_lt s hi, if_pos hi, if_pos hi]
  · rw [roundStep_last s (Nat.le_of_not_lt hi), if_neg hi, if_neg hi]

/-- The ACCUM transition where a further block follows (45_sequencer.md R236). -/
theorem advanceBlock_more {s : State} (h : s.blk.toNat + 1 < numBlocks s.mlen.toNat) :
    advanceBlock s = { s with blk := s.blk + 1#56, phase := Phase.ldblk } :=
  if_pos h

/-- The ACCUM transition after the last block (45_sequencer.md R236). -/
theorem advanceBlock_last {s : State} (h : ¬ s.blk.toNat + 1 < numBlocks s.mlen.toNat) :
    advanceBlock s = { s with phase := Phase.idle, done := true } :=
  if_neg h

/-- The ACCUM transition as one update of BLK, PHASE and DONE (45_sequencer.md R236). -/
theorem advanceBlock_eq (s : State) : advanceBlock s =
    { s with
      blk := if s.blk.toNat + 1 < numBlocks s.mlen.toNat then s.blk + 1#56 else s.blk
      phase := if s.blk.toNat + 1 < numBlocks s.mlen.toNat then Phase.ldblk else Phase.idle
      done := if s.blk.toNat + 1 < numBlocks s.mlen.toNat then s.done else true } := by
  by_cases h : s.blk.toNat + 1 < numBlocks s.mlen.toNat
  · simp only [advanceBlock_more h, if_pos h]
  · simp only [advanceBlock_last h, if_neg h]

/-! ## What a turn can do, in few cases -/

/-- A step that answers next is the engine's turn, a host access or a reset; an empty list of turns is one where the engine is
due. -/
theorem step_next {s t : State} (h : step s = .next t) :
    (s.engineDue ∧ ∃ ts, engineTurn { s with turns := ts } = .next t) ∨
    (∃ acc ts, s.turns = .host acc :: ts ∧ hostAccess acc { s with turns := ts } = .next t) ∨
    (∃ ts, s.turns = .reset :: ts ∧ t = hardwareReset { s with turns := ts }) := by
  rcases step_cases s with ⟨hts, he⟩ | ⟨ts, hts, he⟩ | ⟨acc, ts, hts, he⟩ | ⟨ts, hts, he⟩ <;> rw [he] at h
  · have hs : ({ s with turns := [] } : State) = s := by rw [← hts]
    exact .inl ⟨.inl hts, [], by rw [hs]; exact h⟩
  · exact .inl ⟨.inr ⟨ts, hts⟩, ts, h⟩
  · exact .inr (.inl ⟨acc, ts, hts, h⟩)
  · cases h; exact .inr (.inr ⟨ts, hts, rfl⟩)

/-- A host access leaves alone what a run depends on, or it finds the engine idle and starts a run, sets MLEN, or writes one byte
of the buffer (46_host_commands.md R251 to R260). -/
theorem hostAccess_next_runOnly {acc : Access} {s t : State} (h : hostAccess acc s = .next t) :
    t.runOnly = s.runOnly ∨
    (acc = .wr 0x00 1#32 ∧ s.phase = Phase.idle ∧ s.mlen.toNat ≤ s.cfg.msgBytes.val ∧ t = acceptStart s) ∨
    (s.phase = Phase.idle ∧ ∃ n, t = { s with mlen := n }) ∨
    (s.phase = Phase.idle ∧ ∃ a v, a < s.cfg.msgBytes.val ∧ t = { s with msg := Memory.write s.msg a v }) := by
  obtain ⟨-, rfl | ⟨f, rfl⟩ | rfl | hstart | hlen | hmsg | ⟨r, rfl⟩ | rfl | ⟨a, rfl⟩⟩ := hostAccess_next h
  · exact .inl rfl
  · exact .inl (runOnly_raiseFlag f s)
  · exact .inl (runOnly_clearErrors s)
  · exact .inr (.inl hstart)
  · exact .inr (.inr (.inl hlen))
  · exact .inr (.inr (.inr hmsg))
  · exact .inl (runOnly_of_engineOnly (engineOnly_reply r s))
  · exact .inl (runOnly_of_engineOnly (engineOnly_replyFreeWord s))
  · exact .inl (runOnly_of_engineOnly (engineOnly_replyFreeByte a s))

/-- The engine's turn leaves the message, its length, the configuration and the error flags alone (10_state.md R31, R32, R36,
20_memory.md R75). -/
theorem engineTurn_next_frame {s t : State} (h : engineTurn s = .next t) :
    t.msg = s.msg ∧ t.mlen = s.mlen ∧ t.cfg = s.cfg ∧ t.elen = s.elen ∧ t.ebusy = s.ebusy ∧ t.ecmd = s.ecmd := by
  rcases engineTurn_next h with
    ⟨-, rfl⟩ | ⟨-, -, n, -, rfl⟩ | ⟨-, -, rfl⟩ | ⟨-, -, rfl⟩ | ⟨-, -, -, rfl⟩ | ⟨-, -, rfl⟩ <;>
    simp [roundStep_eq, advanceBlock_eq]

/-! ## Legal states (10_state.md R50) -/

/-- The buffer is canonical and lists addresses below its capacity (10_state.md R32). -/
def State.MsgCanonical (s : State) : Prop :=
  Memory.wf s.msg = true ∧ Memory.within s.cfg.msgBytes.val s.msg = true

theorem msgCanonical_congr {s t : State} (hm : t.msg = s.msg) (hc : t.cfg = s.cfg) (h : s.MsgCanonical) :
    t.MsgCanonical := by
  rw [State.MsgCanonical, hm, hc]; exact h

/-- The legal states are the lawful ones whose buffer is canonical and inside its capacity. -/
theorem legal_iff (s : State) : Legal s ↔ s.lawful = true ∧ s.MsgCanonical := by
  constructor
  · intro h
    exact ⟨h.lawful, h.msg_wf, h.msg_within⟩
  · rintro ⟨hl, hwf, hin⟩
    obtain ⟨hphase, hstep, hrun, hdone⟩ := (lawful_iff s).1 hl
    exact ⟨hphase, hstep, fun hp => (hrun hp).1, fun hp => (hrun hp).2, hdone, hwf, hin⟩

/-- An idle engine with an empty buffer, as every reset leaves it, is legal. -/
theorem legal_of_idle_of_msg_nil {s : State} (hp : s.phase = Phase.idle) (hm : s.msg = []) : Legal s := by
  rw [legal_iff, State.MsgCanonical, hm]
  exact ⟨lawful_idle hp, rfl, rfl⟩

/-- In a run R50 (3) and (4) hold, and R50 (1) and (2) are all that is left of the invariants. -/
theorem lawful_of_inRun_of_phase {s : State} (hr : s.inRun = true) (hp : s.phase.toNat ≤ 5)
    (hi : s.phase = Phase.round → s.stepIdx.toNat ≤ 79) : s.lawful = true := by
  obtain ⟨hb, hm, hd⟩ := (inRun_iff s).1 hr
  exact (lawful_iff s).2 ⟨hp, hi, fun _ => ⟨hb, hm⟩, by simp [hd]⟩

/-- The same where PHASE is known and is not ROUND, so that STEP does not matter. -/
theorem lawful_of_inRun_of_ne_round {s : State} (p : BitVec 3) (hr : s.inRun = true) (hp : s.phase = p)
    (hle : p.toNat ≤ 5) (hne : p ≠ Phase.round) : s.lawful = true :=
  lawful_of_inRun_of_phase hr (hp ▸ hle) fun h => absurd (hp.symm.trans h) hne

/-- A STEP micro-operation at an index of a round leaves a lawful state: STEP goes up to 79 only. -/
theorem lawful_roundStep (r : Round) {i : BitVec 7} {s : State} (hr : s.inRun = true) (hp : s.phase = Phase.round) :
    (roundStep r i s).lawful = true := by
  by_cases h79 : i.toNat < 79
  · rw [roundStep_lt s h79]
    refine lawful_of_inRun_of_phase hr (by simp [hp]) fun _ => ?_
    show (i + 1#7).toNat ≤ 79
    bv_omega
  · rw [roundStep_last s (Nat.le_of_not_lt h79)]
    exact lawful_of_inRun_of_ne_round Phase.accum hr rfl (by decide) (by decide)

/-- ACCUM leaves a lawful state: BLK goes up below NB only, and never wraps (10_state.md R28). -/
theorem lawful_advanceBlock {s : State} (hr : s.inRun = true) : (advanceBlock s).lawful = true := by
  obtain ⟨hb, hm, hd⟩ := (inRun_iff s).1 hr
  by_cases h : s.blk.toNat + 1 < numBlocks s.mlen.toNat
  · rw [advanceBlock_more h]
    have hnb := numBlocks_le hm
    have hblk : (s.blk + 1#56).toNat = s.blk.toNat + 1 := by bv_omega
    exact lawful_of_inRun_of_ne_round Phase.ldblk ((inRun_iff _).2 ⟨hblk ▸ h, hm, hd⟩) rfl (by decide) (by decide)
  · rw [advanceBlock_last h]
    exact lawful_idle rfl

/-- Every turn of the engine leaves a lawful state. -/
theorem engineTurn_keeps_lawful {s t : State} (h : engineTurn s = .next t) : t.lawful = true := by
  rcases engineTurn_next h with
    ⟨hp, rfl⟩ | ⟨-, hr, n, -, rfl⟩ | ⟨-, hr, rfl⟩ | ⟨-, hr, rfl⟩ | ⟨hp, hr, -, rfl⟩ | ⟨-, hr, rfl⟩
  · exact lawful_idle hp
  · exact lawful_of_inRun_of_ne_round Phase.perm hr rfl (by decide) (by decide)
  · exact lawful_of_inRun_of_ne_round Phase.seed hr rfl (by decide) (by decide)
  · exact lawful_of_inRun_of_phase hr (by simp) (by simp)
  · exact lawful_roundStep _ hr hp
  · exact lawful_advanceBlock hr

/-- A START that is accepted begins a lawful run: there is at least one block. -/
theorem lawful_acceptStart {s : State} (hm : s.mlen.toNat ≤ s.cfg.msgBytes.val) : (acceptStart s).lawful = true :=
  lawful_of_inRun_of_ne_round Phase.ldblk ((inRun_iff _).2 ⟨numBlocks_pos _, hm, rfl⟩) rfl (by decide) (by decide)

/-- Every host access leaves a lawful state. -/
theorem hostAccess_keeps_lawful {acc : Access} {s t : State} (h : hostAccess acc s = .next t) : t.lawful = true := by
  rcases hostAccess_next_runOnly h with hrun | ⟨-, -, hm, rfl⟩ | ⟨hp, n, rfl⟩ | ⟨hp, a, v, -, rfl⟩
  · rw [lawful_of_runOnly hrun]; exact (hostAccess_next h).1
  · exact lawful_acceptStart hm
  · exact lawful_idle hp
  · exact lawful_idle hp

/-- Every host access keeps the buffer canonical and inside its capacity. -/
theorem hostAccess_keeps_msgCanonical {acc : Access} {s t : State} (h : hostAccess acc s = .next t)
    (hs : s.MsgCanonical) : t.MsgCanonical := by
  rcases hostAccess_next_runOnly h with hrun | ⟨-, -, -, rfl⟩ | ⟨-, n, rfl⟩ | ⟨-, a, v, ha, rfl⟩
  · exact msgCanonical_congr (by simpa using congrArg State.msg hrun) (by simpa using congrArg State.cfg hrun) hs
  · exact hs
  · exact hs
  · exact ⟨wf_write a v hs.1, within_write v hs.2 ha⟩

/-- Settles O48: by the turn of the step, each keeping R50 (1) to (4) and the buffer's form. -/
theorem stepKeepsTheLegalStates : Obligations.StepKeepsTheLegalStates := by
  intro s t h
  rcases step_next h with ⟨-, ts, he⟩ | ⟨acc, ts, -, he⟩ | ⟨ts, hts, rfl⟩
  · obtain ⟨hmsg, -, hcfg, -⟩ := engineTurn_next_frame he
    have ht := engineTurn_keeps_lawful he
    exact ⟨fun hs => (legal_iff t).2 ⟨ht, msgCanonical_congr hmsg hcfg ((legal_iff s).1 hs).2⟩, ht,
      .inl ((lawful_turns s ts).symm.trans (engineTurn_next_lawful he))⟩
  · have ht := hostAccess_keeps_lawful he
    exact ⟨fun hs => (legal_iff t).2 ⟨ht, hostAccess_keeps_msgCanonical he ((legal_iff s).1 hs).2⟩, ht,
      .inl ((lawful_turns s ts).symm.trans (hostAccess_next he).1)⟩
  · have ht : Legal (hardwareReset { s with turns := ts }) := legal_of_idle_of_msg_nil rfl rfl
    exact ⟨fun _ => ht, ht.lawful, .inr ⟨ts, hts⟩⟩

/-- Settles O49: the reset state is idle and its buffer lists nothing. -/
theorem resetIsLegal : Obligations.ResetIsLegal := legal_of_idle_of_msg_nil reset_phase reset_msg

/-! ## The sequencer and DONE (10_state.md R34, R35) -/

/-! The codes of the five phases of a run are not that of IDLE (30_encoding.md R93). -/

@[simp] theorem ldblk_ne_idle : Phase.ldblk ≠ Phase.idle := by decide
@[simp] theorem perm_ne_idle : Phase.perm ≠ Phase.idle := by decide
@[simp] theorem seed_ne_idle : Phase.seed ≠ Phase.idle := by decide
@[simp] theorem round_ne_idle : Phase.round ≠ Phase.idle := by decide
@[simp] theorem accum_ne_idle : Phase.accum ≠ Phase.idle := by decide

/-- The engine's turn neither leaves IDLE nor returns to it, and leaves DONE alone, but in the ACCUM of the last block, which
returns to IDLE with DONE set (10_state.md R35, 45_sequencer.md R231, R236). -/
theorem engineTurn_next_done {s t : State} (h : engineTurn s = .next t) :
    (t.done = s.done ∧ (t.phase = Phase.idle ↔ s.phase = Phase.idle)) ∨
    (s.phase = Phase.accum ∧ s.blk.toNat + 1 = numBlocks s.mlen.toNat ∧ s.done = false ∧
      t.phase = Phase.idle ∧ t.done = true) := by
  rcases engineTurn_next h with
    ⟨-, rfl⟩ | ⟨hp, -, n, -, rfl⟩ | ⟨hp, -, rfl⟩ | ⟨hp, -, rfl⟩ | ⟨hp, -, -, rfl⟩ | ⟨hp, hr, rfl⟩
  · exact .inl ⟨rfl, Iff.rfl⟩
  · exact .inl ⟨rfl, by simp [hp]⟩
  · exact .inl ⟨rfl, by simp [hp]⟩
  · exact .inl ⟨rfl, by simp [hp]⟩
  · refine .inl ⟨by simp [roundStep_eq], ?_⟩
    rw [roundStep_eq]
    split <;> simp [hp]
  · obtain ⟨hb, -, hd⟩ := (inRun_iff s).1 hr
    by_cases hmore : s.blk.toNat + 1 < numBlocks s.mlen.toNat
    · exact .inl (by simp [advanceBlock_eq, hmore, hp])
    · exact .inr ⟨hp, by omega, hd, by simp [advanceBlock_eq, hmore]⟩

/-- A host access leaves PHASE and DONE alone, but for the START that is accepted (10_state.md R35, 46_host_commands.md R252). -/
theorem hostAccess_next_done {acc : Access} {s t : State} (h : hostAccess acc s = .next t) :
    (t.phase = s.phase ∧ t.done = s.done) ∨
    (acc = .wr 0x00 1#32 ∧ s.phase = Phase.idle ∧ s.mlen.toNat ≤ s.cfg.msgBytes.val ∧
      t.phase = Phase.ldblk ∧ t.done = false) := by
  rcases hostAccess_next_runOnly h with hrun | ⟨hacc, hp, hm, rfl⟩ | ⟨-, n, rfl⟩ | ⟨-, a, v, -, rfl⟩
  · exact .inl ⟨by simpa using congrArg State.phase hrun, by simpa using congrArg State.done hrun⟩
  · exact .inr ⟨hacc, hp, hm, rfl, rfl⟩
  · exact .inl ⟨rfl, rfl⟩
  · exact .inl ⟨rfl, rfl⟩

/-- What a step does to PHASE's being IDLE and to DONE: it leaves both, or it is the last ACCUM of a run, an accepted START, or a
reset. -/
theorem step_next_done {s t : State} (h : step s = .next t) :
    (t.done = s.done ∧ (t.phase = Phase.idle ↔ s.phase = Phase.idle)) ∨
    (s.engineDue ∧ s.phase = Phase.accum ∧ s.blk.toNat + 1 = numBlocks s.mlen.toNat ∧ s.done = false ∧
      t.phase = Phase.idle ∧ t.done = true) ∨
    (∃ ts, s.turns = .host (.wr 0x00 1#32) :: ts ∧ s.phase = Phase.idle ∧ s.mlen.toNat ≤ s.cfg.msgBytes.val ∧
      t.phase = Phase.ldblk ∧ t.done = false) ∨
    (∃ ts, s.turns = .reset :: ts ∧ t.phase = Phase.idle ∧ t.done = false) := by
  rcases step_next h with ⟨hdue, ts, he⟩ | ⟨acc, ts, hts, he⟩ | ⟨ts, hts, rfl⟩
  · exact (engineTurn_next_done he).imp id fun hlast => .inl ⟨hdue, hlast⟩
  · rcases hostAccess_next_done he with ⟨hp, hd⟩ | ⟨rfl, hstart⟩
    · exact .inl ⟨hd, by rw [hp]⟩
    · exact .inr (.inr (.inl ⟨ts, hts, hstart⟩))
  · exact .inr (.inr (.inr ⟨ts, hts, rfl, rfl⟩))

/-- Settles O53, from what a step does to DONE. -/
theorem doneRisesAtTheLastAccumOnly : Obligations.DoneRisesAtTheLastAccumOnly := by
  intro s t h
  rcases step_next_done h with
    ⟨hd, -⟩ | ⟨hdue, hp, hb, hd, hp', hd'⟩ | ⟨ts, hts, hp, hm, -, hd'⟩ | ⟨ts, hts, -, hd'⟩
  · rw [hd]
    cases s.done <;> simp
  · exact ⟨fun _ _ => ⟨hdue, hp, hb, hp'⟩, by simp [hd]⟩
  · exact ⟨by simp [hd'], fun _ _ => .inr ⟨ts, hts, hp, hm⟩⟩
  · exact ⟨by simp [hd'], fun _ _ => .inl ⟨ts, hts⟩⟩

/-! ## Which instruction writes which register (10_state.md R21 to R36, 20_memory.md R75) -/

/-- What may differ between the states before and after the instruction `i`: each register only if `i` is one of its writers. -/
def WrittenBy (i : Instr) (s t : State) : Prop :=
  (t.work ≠ s.work → i = .seed ∨ ∃ j, i = .stepF1 j ∨ i = .stepF2 j ∨ i = .stepF3 j ∨ i = .stepF4 j ∨ i = .stepF5 j) ∧
  (t.h ≠ s.h → i = .start ∨ i = .accum) ∧
  (t.x ≠ s.x → i = .ldblk) ∧ (t.w ≠ s.w → i = .perm) ∧
  (t.phase ≠ s.phase → i = .start ∨ i = .ldblk ∨ i = .perm ∨ i = .seed ∨ i = .stepF5 79#7 ∨ i = .accum) ∧
  (t.blk ≠ s.blk → i = .start ∨ i = .accum) ∧
  (t.stepIdx ≠ s.stepIdx →
    i = .seed ∨ ∃ j, i = .stepF1 j ∨ i = .stepF2 j ∨ i = .stepF3 j ∨ i = .stepF4 j ∨ i = .stepF5 j) ∧
  (t.done ≠ s.done → i = .start ∨ i = .accum) ∧
  (t.elen ≠ s.elen ∨ t.ebusy ≠ s.ebusy → i = .start ∨ i = .clrerr) ∧ (t.ecmd ≠ s.ecmd → i = .clrerr) ∧
  (∀ a, Memory.read t.msg a = Memory.read s.msg a) ∧ t.mlen = s.mlen ∧ t.cfg = s.cfg ∧
  t.turns = s.turns ∧ t.replies = s.replies

/-- Of the STEP micro-operations only STEP.F5 can be at index 79 or above, and then it is at 79 (30_encoding.md R94). -/
theorem lt_or_last_of_wellFormed {i : Instr} {j : BitVec 7}
    (hi : i = .stepF1 j ∨ i = .stepF2 j ∨ i = .stepF3 j ∨ i = .stepF4 j ∨ i = .stepF5 j) (hw : i.wellFormed = true) :
    j.toNat < 79 ∨ i = .stepF5 79#7 := by
  rcases hi with rfl | rfl | rfl | rfl | rfl <;> simp only [Instr.wellFormed, decide_eq_true_eq] at hw
  · exact .inl (by omega)
  · exact .inl (by omega)
  · exact .inl (by omega)
  · exact .inl (by omega)
  · rcases Nat.lt_or_eq_of_le hw.2 with hlt | h79
    · exact .inl hlt
    · exact .inr (congrArg Instr.stepF5 (BitVec.eq_of_toNat_eq h79))

/-- A STEP micro-operation writes the working registers and STEP; PHASE only where it is STEP.F5 at 79. -/
theorem writtenBy_roundStep {i : Instr} {j : BitVec 7} (r : Round) {s : State}
    (hi : i = .stepF1 j ∨ i = .stepF2 j ∨ i = .stepF3 j ∨ i = .stepF4 j ∨ i = .stepF5 j)
    (hs : s.selected = .instr i) : WrittenBy i s (roundStep r j s) := by
  rw [roundStep_eq]
  refine ⟨fun _ => .inr ⟨j, hi⟩, by simp, by simp, by simp, fun hp => ?_, by simp, fun _ => .inr ⟨j, hi⟩, by simp⟩
  rcases lt_or_last_of_wellFormed hi (selected_wellFormed hs) with hlt | hlast
  · exact absurd (if_pos hlt) hp
  · exact .inr (.inr (.inr (.inr (.inl hlast))))

theorem writtenBy_start {s t : State} (h : exec .start s = .next t) : WrittenBy .start s t := by
  rcases exec_start (exec_start_next h) with ⟨-, he⟩ | ⟨-, -, he⟩ | ⟨-, -, he⟩ <;> cases he.symm.trans h
  · simp [WrittenBy]
  · simp [WrittenBy]
  · simp [WrittenBy]

/-- Every instruction writes the registers it is a writer of, and no other. -/
theorem exec_next_writtenBy {i : Instr} {s t : State} (h : exec i s = .next t) : WrittenBy i s t := by
  cases i with
  | nop => obtain ⟨-, rfl⟩ := exec_nop_next h; simp [WrittenBy]
  | start => exact writtenBy_start h
  | clrerr => obtain ⟨-, rfl⟩ := exec_clrerr_next h; simp [WrittenBy]
  | wait => obtain ⟨-, rfl⟩ := exec_wait_next h; simp [WrittenBy]
  | ldblk => obtain ⟨-, -, n, -, rfl⟩ := exec_ldblk_next h; simp [WrittenBy]
  | perm => obtain ⟨-, -, rfl⟩ := exec_perm_next h; simp [WrittenBy]
  | seed => obtain ⟨-, -, rfl⟩ := exec_seed_next h; simp [WrittenBy]
  | stepF1 j => obtain ⟨hs, -, rfl⟩ := exec_stepF1_next h; exact writtenBy_roundStep _ (by simp) hs
  | stepF2 j => obtain ⟨hs, -, rfl⟩ := exec_stepF2_next h; exact writtenBy_roundStep _ (by simp) hs
  | stepF3 j => obtain ⟨hs, -, rfl⟩ := exec_stepF3_next h; exact writtenBy_roundStep _ (by simp) hs
  | stepF4 j => obtain ⟨hs, -, rfl⟩ := exec_stepF4_next h; exact writtenBy_roundStep _ (by simp) hs
  | stepF5 j => obtain ⟨hs, -, rfl⟩ := exec_stepF5_next h; exact writtenBy_roundStep _ (by simp) hs
  | accum => obtain ⟨-, -, rfl⟩ := exec_accum_next h; simp [WrittenBy, advanceBlock_eq]

/-- Settles O52: `exec` instruction by instruction, and PHASE from what a step does to it. -/
theorem eachRegisterHasItsWriters : Obligations.EachRegisterHasItsWriters := by
  refine ⟨fun i s t h => exec_next_writtenBy h, fun s t h => ?_⟩
  rcases step_next_done h with
    ⟨-, hp⟩ | ⟨hdue, hp, hb, -, hp', -⟩ | ⟨ts, hts, hp, hm, hp', -⟩ | ⟨ts, hts, hp', -⟩
  · exact ⟨fun hi hn => absurd (hp.2 hi) hn, fun hn hi => absurd (hp.1 hi) hn⟩
  · exact ⟨fun _ hn => absurd hp' hn, fun _ _ => .inl ⟨hdue, hp, hb⟩⟩
  · exact ⟨fun _ _ => ⟨ts, hts, hm, hp'⟩, fun hn _ => absurd hp hn⟩
  · exact ⟨fun _ hn => absurd hp' hn, fun _ _ => .inr ⟨ts, hts⟩⟩

/-! ## States without behaviour (10_state.md R50, 30_encoding.md R100) -/

/-- PHASE 6 and 7, and STEP of 80 or more in ROUND, select nothing (30_encoding.md R100). -/
theorem selected_reserved {s : State} (h : s.phase = 6#3 ∨ s.phase = 7#3 ∨ (s.phase = 4#3 ∧ 80 ≤ s.stepIdx.toNat)) :
    ∃ r, s.selected = .reserved r := by
  rcases h with hp | hp | ⟨hp, hi⟩
  · exact ⟨.phase, by simp [selected_eq, hp]⟩
  · exact ⟨.phase, by simp [selected_eq, hp]⟩
  · refine ⟨.step, (selected_round hp).trans ?_⟩
    rw [decodeRound, if_neg (by omega), if_neg (by omega), if_neg (by omega), if_neg (by omega), if_neg (by omega)]

/-- A micro-operation that the control word does not select is a fault (45_sequencer.md R230). -/
theorem exec_of_not_selected {i : Instr} {s : State} (hi : i.byHost = false) (hs : s.selected ≠ .instr i) :
    exec i s = .fault .notSelected := by
  cases i with
  | nop | start | clrerr => cases hi
  | wait => exact whenSelected_else _ hs
  | ldblk | perm | seed | stepF1 | stepF2 | stepF3 | stepF4 | stepF5 | accum => exact whenInRun_else _ hs

/-- Settles O30: an answer of next comes from lawful states only, and the reserved control words select nothing. -/
theorem brokenInvariantsHaveNoBehaviour : Obligations.BrokenInvariantsHaveNoBehaviour := by
  intro s
  refine ⟨lawful_iff s, fun hl => ⟨fun i t he => ?_, fun t he => ?_, fun acc => hostAccess_else acc hl⟩, fun hres => ?_⟩
  · simp [exec_next_lawful he] at hl
  · simp [engineTurn_next_lawful he] at hl
  · obtain ⟨r, hr⟩ := selected_reserved hres
    exact ⟨by simp only [engineTurn, hr], fun i hi => exec_of_not_selected hi (by simp [hr])⟩

/-! ## What the engine does not see (10_state.md R32, R36) -/

/-- Another message buffer and other error flags in place of those of `t`. -/
def State.unseen (msg : List Host.Cell) (elen ebusy ecmd : Bool) (t : State) : State :=
  { t with msg := msg, elen := elen, ebusy := ebusy, ecmd := ecmd }

/-- The padding unit reads message bytes below the length only (40_padding.md R127). -/
theorem padByte_congr {f g : Nat → Byte} (n : MsgLen) (h : ∀ a, a < n.val → f a = g a) : padByte f n = padByte g n := by
  funext m
  unfold padByte
  split
  · exact h m ‹_›
  · rfl

/-- So the words of a block depend on the message bytes below the length only (41_block_words.md R141). -/
theorem loadBlock_congr {f g : Nat → Byte} (n : MsgLen) (k : Nat) (h : ∀ a, a < n.val → f a = g a) :
    loadBlock f n k = loadBlock g n k := by
  have hword : blockWord f n k = blockWord g n k := by
    funext j
    simp only [blockWord, padByte_congr n h]
  rw [loadBlock, hword, loadBlock]

/-- Where two buffers read alike the padding unit gets the same byte, the free byte of an address in neither included. -/
theorem messageByte_unseen {s : State} {msg : List Host.Cell} {a : Nat} (elen ebusy ecmd : Bool)
    (h : Memory.read msg a = Memory.read s.msg a) : (s.unseen msg elen ebusy ecmd).messageByte a = s.messageByte a := by
  simp only [State.messageByte, State.unseen, h]

theorem roundStep_unseen (r : Round) (i : BitVec 7) (msg : List Host.Cell) (elen ebusy ecmd : Bool) (s : State) :
    roundStep r i (s.unseen msg elen ebusy ecmd) = (roundStep r i s).unseen msg elen ebusy ecmd := by
  simp only [roundStep_eq, State.unseen]

theorem advanceBlock_unseen (msg : List Host.Cell) (elen ebusy ecmd : Bool) (s : State) :
    advanceBlock (s.unseen msg elen ebusy ecmd) = (advanceBlock s).unseen msg elen ebusy ecmd := by
  simp only [advanceBlock_eq, State.unseen]

/-- A change that the control word does not see goes through the gate of a micro-operation. -/
theorem whenSelected_mapNext {i : Instr} {s s' : State} {f : State → State} {k k' : Result}
    (hs : s'.selected = s.selected) (hk : k' = mapNext f k) : whenSelected i s' k' = mapNext f (whenSelected i s k) := by
  by_cases hsel : s.selected = .instr i
  · rw [whenSelected_of _ hsel, whenSelected_of _ (hs.trans hsel), hk]
  · rw [whenSelected_else _ hsel, whenSelected_else _ (hs ▸ hsel), mapNext]

/-- And through the gate of a micro-operation of a run, where the invariants do not see it either. -/
theorem whenInRun_mapNext {i : Instr} {s s' : State} {f : State → State} {k : s.inRun = true → Result}
    {k' : s'.inRun = true → Result} (hs : s'.selected = s.selected) (hr : s'.inRun = s.inRun)
    (hk : ∀ h h', k' h' = mapNext f (k h)) : whenInRun i s' k' = mapNext f (whenInRun i s k) := by
  refine whenSelected_mapNext hs ?_
  by_cases hrun : s.inRun = true
  · rw [dif_pos hrun, dif_pos (hr.trans hrun), hk hrun]
  · rw [dif_neg hrun, dif_neg (hr ▸ hrun), mapNext]

/-- Every micro-operation goes through a change of the error flags and of message bytes at MLEN and above. -/
theorem exec_unseen {s : State} {msg : List Host.Cell} (elen ebusy ecmd : Bool) {i : Instr} (hi : i.byHost = false)
    (hm : ∀ a, a < s.mlen.toNat → Memory.read msg a = Memory.read s.msg a) :
    exec i (s.unseen msg elen ebusy ecmd) = mapNext (State.unseen msg elen ebusy ecmd) (exec i s) := by
  cases i with
  | nop | start | clrerr => cases hi
  | wait => exact whenSelected_mapNext rfl rfl
  | ldblk =>
    refine whenInRun_mapNext rfl rfl fun hr _ => ?_
    have hx : loadBlock (s.unseen msg elen ebusy ecmd).messageByte ⟨s.mlen.toNat, inRun_lt hr⟩ s.blk.toNat =
        loadBlock s.messageByte ⟨s.mlen.toNat, inRun_lt hr⟩ s.blk.toNat :=
      loadBlock_congr _ _ fun a ha => messageByte_unseen elen ebusy ecmd (hm a ha)
    exact congrArg (fun x => Host.Outcome.next (State.unseen msg elen ebusy ecmd
      { s with x := x, phase := Phase.perm, draws := s.draws + 1 })) hx
  | perm | seed => exact whenInRun_mapNext rfl rfl fun _ _ => rfl
  | stepF1 j | stepF2 j | stepF3 j | stepF4 j | stepF5 j =>
    exact whenInRun_mapNext rfl rfl fun _ _ => congrArg Host.Outcome.next (roundStep_unseen _ j msg elen ebusy ecmd s)
  | accum =>
    exact whenInRun_mapNext rfl rfl fun _ _ =>
      congrArg Host.Outcome.next (advanceBlock_unseen msg elen ebusy ecmd { s with h := addLanes s.h s.work })

/-- The control word selects micro-operations only (30_encoding.md R93). -/
theorem selected_byHost {s : State} {i : Instr} (h : s.selected = .instr i) : i.byHost = false := by
  rcases selected_cases s with ⟨-, hs⟩ | ⟨-, hs⟩ | ⟨-, hs⟩ | ⟨-, hs⟩ | ⟨-, hs⟩ | ⟨-, hs⟩ | ⟨-, hs⟩ <;> rw [hs] at h
  case inr.inr.inr.inr.inl =>
    rcases decodeRound_cases s.stepIdx with ⟨-, hd⟩ | ⟨-, -, hd⟩ | ⟨-, -, hd⟩ | ⟨-, -, hd⟩ | ⟨-, -, hd⟩ | ⟨-, hd⟩ <;>
      (rw [hd] at h; cases h <;> rfl)
  all_goals cases h <;> rfl

/-- The engine does not see the error flags, nor the message bytes at MLEN and above. -/
theorem engineTurn_unseen {s : State} {msg : List Host.Cell} (elen ebusy ecmd : Bool)
    (hm : ∀ a, a < s.mlen.toNat → Memory.read msg a = Memory.read s.msg a) :
    engineTurn (s.unseen msg elen ebusy ecmd) = mapNext (State.unseen msg elen ebusy ecmd) (engineTurn s) := by
  have hsel : (s.unseen msg elen ebusy ecmd).selected = s.selected := rfl
  cases hs : s.selected with
  | instr i => simp only [engineTurn, hsel, hs, exec_unseen elen ebusy ecmd (selected_byHost hs) hm]
  | reserved r => simp only [engineTurn, hsel, hs, mapNext]

/-- Two changes that agree on the next state of an answer change the answer alike. -/
theorem mapNext_congr {f g : State → State} {r : Result} (h : ∀ t, r = .next t → f t = g t) :
    mapNext f r = mapNext g r := by
  cases r with
  | next t => exact congrArg Host.Outcome.next (h t rfl)
  | fault _ | refused _ => rfl

/-- Settles O55: the engine keeps the error flags, so only the buffer differs. -/
theorem bytesBeyondTheLengthDoNotMatter : Obligations.BytesBeyondTheLengthDoNotMatter := by
  intro s msg hm
  refine (engineTurn_unseen s.elen s.ebusy s.ecmd hm).trans (mapNext_congr fun t ht => ?_)
  obtain ⟨-, -, -, helen, hebusy, hecmd⟩ := engineTurn_next_frame ht
  simp only [State.unseen, ← helen, ← hebusy, ← hecmd]

/-- Settles O56: the engine keeps the buffer, so only the error flags differ. -/
theorem errorFlagsDoNotMatterToTheEngine : Obligations.ErrorFlagsDoNotMatterToTheEngine := by
  intro s x y z
  refine (engineTurn_unseen x y z fun a _ => rfl).trans (mapNext_congr fun t ht => ?_)
  obtain ⟨hmsg, -⟩ := engineTurn_next_frame ht
  simp only [State.unseen, ← hmsg]

/-! ## MLEN, CMD and the values after reset (10_state.md R38, R39, R49) -/

/-- MLEN = MLEN_HI · 2^32 + MLEN_LO. -/
theorem mlenOf_toNat (hi lo : Word) : (mlenOf hi lo).toNat = hi.toNat * 2 ^ 32 + lo.toNat := by
  rw [mlenOf, BitVec.toNat_append, ← Nat.shiftLeft_add_eq_or_of_lt lo.isLt, Nat.shiftLeft_eq]

/-- MLEN_LO of a length put together from two halves. -/
@[simp] theorem mlenLo_mlenOf (s : State) (hi lo : Word) : ({ s with mlen := mlenOf hi lo } : State).mlenLo = lo :=
  BitVec.extractLsb'_append_eq_right

/-- MLEN_HI of a length put together from two halves. -/
@[simp] theorem mlenHi_mlenOf (s : State) (hi lo : Word) : ({ s with mlen := mlenOf hi lo } : State).mlenHi = hi :=
  BitVec.extractLsb'_append_eq_left

/-- MLEN_LO reads as the low half (46_host_commands.md R259). -/
theorem hostAccess_read_mlenLo {s : State} (hl : s.lawful = true) :
    hostAccess (.rd 0x08) s = .next (reply (.word s.mlenLo) s) := hostAccess_rd (regAt_offset .mlenLo) hl

/-- MLEN_HI reads as the high half (46_host_commands.md R259). -/
theorem hostAccess_read_mlenHi {s : State} (hl : s.lawful = true) :
    hostAccess (.rd 0x0C) s = .next (reply (.word s.mlenHi) s) := hostAccess_rd (regAt_offset .mlenHi) hl

/-- A write to MLEN_LO of an idle engine sets that half and keeps the other (46_host_commands.md R255). -/
theorem hostAccess_write_mlenLo {s : State} (lo : Word) (hp : s.phase = Phase.idle) :
    hostAccess (.wr 0x08 lo) s = .next { s with mlen := mlenOf s.mlenHi lo } :=
  (hostAccess_wr (regAt_offset .mlenLo) lo (lawful_idle hp)).trans (congrArg _ (unlessBusy_idle _ hp))

/-- A write to MLEN_HI of an idle engine sets that half and keeps the other (46_host_commands.md R255). -/
theorem hostAccess_write_mlenHi {s : State} (hi : Word) (hp : s.phase = Phase.idle) :
    hostAccess (.wr 0x0C hi) s = .next { s with mlen := mlenOf hi s.mlenLo } :=
  (hostAccess_wr (regAt_offset .mlenHi) hi (lawful_idle hp)).trans (congrArg _ (unlessBusy_idle _ hp))

/-- Settles O6: each write keeps the other half, so both orders end in the length put together from the two. -/
theorem mlenHalvesComposeInEitherOrder : Obligations.MlenHalvesComposeInEitherOrder := by
  intro s hi lo hp
  have hu : ({ s with mlen := mlenOf hi lo } : State).lawful = true := lawful_idle hp
  refine ⟨_, { s with mlen := mlenOf hi lo }, _, { s with mlen := mlenOf hi lo }, hostAccess_write_mlenLo lo hp, ?_,
    hostAccess_write_mlenHi hi hp, ?_, rfl, mlenOf_toNat hi lo, ?_, ?_⟩
  · rw [hostAccess_write_mlenHi (s := { s with mlen := mlenOf s.mlenHi lo }) hi hp, mlenLo_mlenOf]
  · rw [hostAccess_write_mlenLo (s := { s with mlen := mlenOf hi s.mlenLo }) lo hp, mlenHi_mlenOf]
  · rw [hostAccess_read_mlenLo hu, mlenLo_mlenOf, reply]
  · rw [hostAccess_read_mlenHi hu, mlenHi_mlenOf, reply]

/-- Settles O32: the coming turn is the access, and a write to CMD runs what its value decodes to. -/
theorem commandStepRunsTheDecodedCommand : Obligations.CommandStepRunsTheDecodedCommand :=
  fun _ _ _ _ hts hd => (step_host hts).trans (hostAccess_command hd _)

/-- Settles O15: each value as `State.reset` writes it, and STATUS made of them. -/
theorem resetLeavesTheStatedValues : Obligations.ResetLeavesTheStatedValues :=
  ⟨reset_phase, reset_done, reset_elen, reset_ebusy, reset_ecmd, reset_mlen, read_nil, by
    simp [State.status, State.busy]⟩

end Sys2Proof.Machine

/-! PROOFS of the statements about the two address spaces (spec/20_memory.md): which accesses complete, what a read leaves alone,
and that no access disturbs a run. -/

namespace Sys2Proof.Machine

/-! ## Which accesses complete (20_memory.md R66, 30_encoding.md R102) -/

/-- In a lawful state every value written to CMD has a next state, the reserved values included (46_host_commands.md R251 to
R254). -/
theorem hostCommand_completes (v : Word) {s : State} (hl : s.lawful = true) : ∃ t, hostCommand v s = .next t := by
  unfold hostCommand
  rcases decodeCommand_cases v with ⟨-, hd⟩ | ⟨-, hd⟩ | ⟨-, hd⟩ | ⟨-, -, -, -, hd⟩ <;> rw [hd]
  · exact ⟨_, exec_nop hl⟩
  · rcases exec_start hl with ⟨-, he⟩ | ⟨-, -, he⟩ | ⟨-, -, he⟩
    · exact ⟨_, he⟩
    · exact ⟨_, he⟩
    · exact ⟨_, he⟩
  · exact ⟨_, exec_clrerr hl⟩
  · exact ⟨_, rfl⟩

/-- In a lawful state a write to any register of the map completes, be it stored, discarded or ignored (46_host_commands.md R251
to R255, R260). -/
theorem hostWriteReg_completes (r : Reg) (v : Word) {s : State} (hl : s.lawful = true) :
    ∃ t, hostWriteReg r v s = .next t := by
  cases r with
  | cmd => exact hostCommand_completes v hl
  | status | mlenLo | mlenHi | digest k => exact ⟨_, rfl⟩

/-- In a lawful state every access to the engine completes. -/
theorem hostAccess_completes {acc : Access} {s : State} (hl : s.lawful = true)
    (hm : acc.inMap s.cfg.msgBytes.val = true) : ∃ t, hostAccess acc s = .next t := by
  cases acc with
  | wr off v =>
    obtain ⟨r, hr⟩ := Option.isSome_iff_exists.1 hm
    rw [hostAccess_wr hr v hl]
    exact hostWriteReg_completes r v hl
  | rd off =>
    obtain ⟨r, hr⟩ := Option.isSome_iff_exists.1 hm
    exact ⟨_, hostAccess_rd hr hl⟩
  | wrb addr v => exact ⟨_, hostAccess_wrb (of_decide_eq_true hm) v hl⟩
  | rdb addr => exact ⟨_, hostAccess_rdb (of_decide_eq_true hm) hl⟩

/-- In a lawful state an access outside the register map and the buffer is refused (assumption log 13). -/
theorem hostAccess_outside {acc : Access} {s : State} (hl : s.lawful = true)
    (hm : acc.inMap s.cfg.msgBytes.val = false) : hostAccess acc s = .refused .outsideEngine := by
  refine (whenLawful_of _ hl).trans ?_
  cases acc with
  | wr off v | rd off =>
    have hr : regAt off = none := by simpa [Access.inMap] using hm
    simp only [hr]
  | wrb addr v | rdb addr => exact if_neg (of_decide_eq_false hm)

/-- Settles O13, by the accesses that complete and those that are refused. -/
theorem onlyAccessesOutsideTheEngineAreRefused : Obligations.OnlyAccessesOutsideTheEngineAreRefused :=
  fun _ _ hl => ⟨hostAccess_completes hl, hostAccess_outside hl⟩

/-- An access that completes is one to the engine, in a lawful state. -/
theorem hostAccess_next_inMap {acc : Access} {s t : State} (h : hostAccess acc s = .next t) :
    s.lawful = true ∧ acc.inMap s.cfg.msgBytes.val = true := by
  have hl := (hostAccess_next h).1
  refine ⟨hl, Bool.eq_true_of_not_eq_false fun hm => ?_⟩
  cases (hostAccess_outside hl hm).symm.trans h

/-! ## Reads (20_memory.md R70) -/

@[simp] theorem hostReadReg_turns (r : Reg) (s : State) : (hostReadReg r s).turns = s.turns := by
  cases r with
  | digest k => by_cases h : s.done = true <;> simp [hostReadReg, h]
  | cmd | status | mlenLo | mlenHi => rfl

@[simp] theorem hostReadByte_turns (a : Nat) (s : State) : (hostReadByte a s).turns = s.turns := by
  unfold hostReadByte
  split <;> rfl

/-- A register read that completes is the read of a register of the map. -/
theorem hostAccess_rd_next {off : Nat} {s t : State} (h : hostAccess (.rd off) s = .next t) :
    ∃ r, regAt off = some r ∧ t = hostReadReg r s := by
  obtain ⟨hl, hm⟩ := hostAccess_next_inMap h
  obtain ⟨r, hr⟩ := Option.isSome_iff_exists.1 hm
  cases (hostAccess_rd hr hl).symm.trans h
  exact ⟨r, hr, rfl⟩

/-- A byte read that completes is the read of a byte of the buffer. -/
theorem hostAccess_rdb_next {addr : Nat} {s t : State} (h : hostAccess (.rdb addr) s = .next t) :
    addr < s.cfg.msgBytes.val ∧ t = hostReadByte addr s := by
  obtain ⟨hl, hm⟩ := hostAccess_next_inMap h
  have ha : addr < s.cfg.msgBytes.val := of_decide_eq_true hm
  cases (hostAccess_rdb ha hl).symm.trans h
  exact ⟨ha, rfl⟩

/-- Settles O12: a read that completes is a register's or a byte's, and neither touches the engine or the coming turns. -/
theorem readsHaveNoSideEffect : Obligations.ReadsHaveNoSideEffect := by
  intro s t
  refine ⟨fun off h => ?_, fun addr h => ?_⟩
  · obtain ⟨r, -, rfl⟩ := hostAccess_rd_next h
    exact ⟨hostReadReg_engineOnly r s, hostReadReg_turns r s⟩
  · obtain ⟨-, rfl⟩ := hostAccess_rdb_next h
    exact ⟨hostReadByte_engineOnly addr s, hostReadByte_turns addr s⟩

/-! ## Accesses in a run (20_memory.md R69, R71, 70_reset_and_hazards.md R315) -/

/-- Settles O54: an access that completes is one to the engine, and in a run such an access leaves alone what the run depends on,
the buffer included. -/
theorem hostCannotDisturbARun : Obligations.HostCannotDisturbARun := by
  intro s t acc hp h
  obtain ⟨hl, hm⟩ := hostAccess_next_inMap h
  obtain ⟨u, hu, hrun, hturns⟩ := hostAccess_busy hl hp hm
  cases hu.symm.trans h
  have hmsg : t.msg = s.msg := by simpa using congrArg State.msg hrun
  exact ⟨hrun, hturns, fun a => by rw [hmsg]⟩

end Sys2Proof.Machine

/-! PROOFS of the statements about the encodings (spec/30_encoding.md): the decoder, the encoder and the opcode table's rows agree,
an access and its triple give each other, and how the selectors come out of STEP. -/

namespace Sys2Proof.Machine

/-! ## Control words by PHASE and STEP (30_encoding.md R92, R94) -/

/-- A control word is its two fields put together again. -/
@[simp] theorem controlWordOf_cwPhase_cwStep (cw : BitVec 10) : controlWordOf (cwPhase cw) (cwStep cw) = cw :=
  (BitVec.extractLsb'_append_extractLsb'_eq_extractLsb' rfl).trans BitVec.extractLsb'_eq_self

/-- A ROUND control word selects by its step index alone. -/
theorem decodeControl_round (i : BitVec 7) : decodeControl (controlWordOf Phase.round i) = decodeRound i := by
  simp [decodeControl, Phase.round]

/-- Settles O33, by the instruction: the encoder has one word for a row without an operand, and a STEP row decodes by the
range of its index. -/
theorem decodeOfEncodeIsTheInstruction : Obligations.DecodeOfEncodeIsTheInstruction := by
  intro i hi
  cases i with
  | nop | start | clrerr | wait | ldblk | perm | seed | accum => decide
  | stepF1 j => exact (decodeControl_round j).trans (decodeRound_f1 (of_decide_eq_true hi))
  | stepF2 j =>
    obtain ⟨hlo, hhi⟩ := of_decide_eq_true hi
    exact (decodeControl_round j).trans (decodeRound_f2 hlo hhi)
  | stepF3 j =>
    obtain ⟨hlo, hhi⟩ := of_decide_eq_true hi
    exact (decodeControl_round j).trans (decodeRound_f3 hlo hhi)
  | stepF4 j =>
    obtain ⟨hlo, hhi⟩ := of_decide_eq_true hi
    exact (decodeControl_round j).trans (decodeRound_f4 hlo hhi)
  | stepF5 j =>
    obtain ⟨hlo, hhi⟩ := of_decide_eq_true hi
    exact (decodeControl_round j).trans (decodeRound_f5 hlo hhi)

/-! ## What the decoder accepts -/

/-- The round decoder answers a STEP row at its own index, so the encoder gives the index back. -/
theorem encode_of_decodeRound {j : BitVec 7} {i : Instr} (h : decodeRound j = .instr i) :
    encode i = .control (controlWordOf Phase.round j) := by
  rcases decodeRound_cases j with ⟨-, hd⟩ | ⟨-, -, hd⟩ | ⟨-, -, hd⟩ | ⟨-, -, hd⟩ | ⟨-, -, hd⟩ | ⟨-, hd⟩ <;>
    cases hd.symm.trans h <;> rfl

/-- The word of the selected micro-operation: the state's own PHASE, with STEP in ROUND and 0 elsewhere (assumption log 17). -/
theorem encode_of_selected {s : State} {i : Instr} (h : s.selected = .instr i) :
    encode i = .control (controlWordOf s.phase (if s.phase = Phase.round then s.stepIdx else 0#7)) := by
  rcases selected_cases s with ⟨hp, hs⟩ | ⟨hp, hs⟩ | ⟨hp, hs⟩ | ⟨hp, hs⟩ | ⟨hp, hs⟩ | ⟨hp, hs⟩ | ⟨-, hs⟩
  case inr.inr.inr.inr.inl =>
    rw [if_pos hp, hp]
    exact encode_of_decodeRound (hs.symm.trans h)
  all_goals cases hs.symm.trans h
  all_goals rw [hp]; rfl

/-- An engine whose PHASE and STEP hold the control word. -/
def holding (cw : BitVec 10) : State := { State.reset with phase := cwPhase cw, stepIdx := cwStep cw }

/-- What such an engine selects is the decoder's answer (45_sequencer.md R230). -/
theorem selected_holding (cw : BitVec 10) : (holding cw).selected = decodeControl cw :=
  congrArg decodeControl (controlWordOf_cwPhase_cwStep cw)

/-- A command value that decodes is the word of a well-formed host command. -/
theorem decodeCommand_instr {w : BitVec 32} {i : Instr} (h : decodeCommand w = .instr i) :
    i.wellFormed = true ∧ i.byHost = true ∧ encode i = .command w := by
  rcases decodeCommand_cases w with ⟨rfl, hd⟩ | ⟨rfl, hd⟩ | ⟨rfl, hd⟩ | ⟨-, -, -, -, hd⟩ <;>
    cases hd.symm.trans h <;> exact ⟨rfl, rfl, rfl⟩

/-- Settles O34: commands by their three values, control words by what an engine that holds them selects. -/
theorem encodeOfDecodeIsTheWord : Obligations.EncodeOfDecodeIsTheWord := by
  refine ⟨fun w i h => decodeCommand_instr h, fun cw i h => ?_⟩
  have hsel : (holding cw).selected = .instr i := (selected_holding cw).trans h
  refine ⟨selected_wellFormed hsel, selected_byHost hsel, _, encode_of_selected hsel,
    cwPhase_controlWordOf _ _, fun hp => ?_⟩
  exact (congrArg _ (if_pos hp)).trans (controlWordOf_cwPhase_cwStep cw)

/-! ## The rows of the opcode table (spec/opcode_table.json, format U) -/

/-- The rows that should match a word with this answer: the instruction's own, none for a reserved word. -/
def rowsOf : Decoded → List Instr
  | .instr i => [i]
  | .reserved _ => []

/-- In ROUND the patterns of the five STEP rows cover each range once, and nothing from 80 on (30_encoding.md R94, R100). -/
theorem rowMatches_round : ∀ i : BitVec 7, rowMatches (controlWordOf Phase.round i) = rowsOf (decodeRound i) := by
  decide

/-- A row matches a control word when it matches both fields. -/
theorem matchesWord_controlWordOf (r : ControlRow) (p : BitVec 3) (i : BitVec 7) :
    r.matchesWord (controlWordOf p i) =
      (p &&& cwPhase r.mask == cwPhase r.bits && i &&& cwStep r.mask == cwStep r.bits) := by
  have hand : controlWordOf p i &&& r.mask = controlWordOf (p &&& cwPhase r.mask) (i &&& cwStep r.mask) := by
    conv_lhs => rw [← controlWordOf_cwPhase_cwStep r.mask]
    exact BitVec.and_append
  rw [Bool.eq_iff_iff, ControlRow.matchesWord, hand, beq_iff_eq, Bool.and_eq_true, beq_iff_eq, beq_iff_eq]
  constructor
  · intro h
    rw [← h, cwPhase_controlWordOf, cwStep_controlWordOf]
    exact ⟨rfl, rfl⟩
  · rintro ⟨hp, hi⟩
    rw [hp, hi, controlWordOf_cwPhase_cwStep]

/-- In every other phase the rows look at PHASE alone, and none matches at 6 or 7 (30_encoding.md R92, R100). -/
theorem rowMatches_of_ne_round {p : BitVec 3} (hp : p ≠ Phase.round) (i : BitVec 7) :
    rowMatches (controlWordOf p i) = rowsOf (decodeControl (controlWordOf p i)) := by
  have hcases : p = 0#3 ∨ p = 1#3 ∨ p = 2#3 ∨ p = 3#3 ∨ p = 5#3 ∨ p = 6#3 ∨ p = 7#3 := by revert p; decide
  simp only [rowMatches, matchesWord_controlWordOf, decodeControl, cwPhase_controlWordOf, cwStep_controlWordOf]
  rcases hcases with rfl | rfl | rfl | rfl | rfl | rfl | rfl <;> simp [controlRows, cwPhase, cwStep, rowsOf]

/-- Settles O35: in ROUND by the patterns of the step ranges, elsewhere by PHASE. -/
theorem everyControlWordMatchesAtMostOneRow : Obligations.EveryControlWordMatchesAtMostOneRow := by
  intro cw
  show rowMatches cw = rowsOf (decodeControl cw)
  rw [← controlWordOf_cwPhase_cwStep cw]
  by_cases hp : cwPhase cw = Phase.round
  · rw [hp, decodeControl_round]
    exact rowMatches_round _
  · exact rowMatches_of_ne_round hp _

/-- Settles O36, by evaluating the decoder on the seventeen words. -/
theorem sampleWordsDecode : Obligations.SampleWordsDecode := by
  unfold Obligations.SampleWordsDecode
  decide

/-! ## Host accesses and their triples (30_encoding.md R104) -/

/-- The triple of an access inside the map is read as that access: its data fit the width of its space. -/
theorem accessOf_triple {cap : Nat} {acc : Access} (h : acc.inMap cap = true) : accessOf cap acc.triple = some acc := by
  cases acc with
  | wr off v =>
    have hm : (regAt off).isSome = true := h
    simp [Access.triple, accessOf, hm, v.isLt]
  | rd off => exact if_pos h
  | wrb addr v =>
    have hm : addr < cap := of_decide_eq_true h
    simp [Access.triple, accessOf, hm, v.isLt]
  | rdb addr => exact if_pos (of_decide_eq_true h)

/-- What a triple is read as: an access inside the map with the triple's direction, space, address and data. -/
theorem accessOf_some {cap : Nat} {tr : Triple} {acc : Access} (h : accessOf cap tr = some acc) :
    acc.triple = tr ∧ acc.inMap cap = true := by
  obtain ⟨write, space, addr, data⟩ := tr
  match write, space, data with
  | true, .reg, some v =>
    obtain ⟨⟨hm, hv⟩, hacc⟩ := Option.ite_none_right_eq_some.1 h
    cases hacc
    exact ⟨by rw [Access.triple, BitVec.toNat_ofNat, Nat.mod_eq_of_lt hv], hm⟩
  | false, .reg, none =>
    obtain ⟨hm, hacc⟩ := Option.ite_none_right_eq_some.1 h
    cases hacc
    exact ⟨rfl, hm⟩
  | true, .msg, some v =>
    obtain ⟨⟨hm, hv⟩, hacc⟩ := Option.ite_none_right_eq_some.1 h
    cases hacc
    exact ⟨by rw [Access.triple, BitVec.toNat_ofNat, Nat.mod_eq_of_lt hv], decide_eq_true hm⟩
  | false, .msg, none =>
    obtain ⟨hm, hacc⟩ := Option.ite_none_right_eq_some.1 h
    cases hacc
    exact ⟨rfl, decide_eq_true hm⟩
  | true, .reg, none | true, .msg, none | false, .reg, some _ | false, .msg, some _ => cases h

/-- Settles O14, one direction each. -/
theorem accessTriplesRoundTrip : Obligations.AccessTriplesRoundTrip :=
  fun _ _ => ⟨accessOf_triple, fun _ => accessOf_some⟩

/-! ## Selectors (30_encoding.md R95, R97) -/

/-- r counts the rounds that end before the step index (42_round_functions.md R165, R166). -/
theorem roundSel_row (i : Nat) : (roundSel i).row.val =
    (if 16 < i then 1 else 0) + (if 32 < i then 1 else 0) + (if 47 < i then 1 else 0) + (if 63 < i then 1 else 0) := by
  unfold roundSel
  split_ifs <;> simp only [Round.row] <;> omega

/-- STEP[3:0] is i mod 16. -/
theorem stepLow_toNat (i : BitVec 7) : (i.extractLsb' 0 4).toNat = i.toNat % 16 := by
  rw [BitVec.extractLsb'_toNat, Nat.shiftRight_zero]

/-- 16 and 5 have no common factor, so the columns of SHIFTS and of K fix the step index below 80. -/
theorem step_eq_of_columns {i j : BitVec 7} (hi : i.toNat ≤ 79) (hj : j.toNat ≤ 79)
    (h16 : shiftCol j.toNat = shiftCol i.toNat) (h5 : kCol j.toNat = kCol i.toNat) : j = i := by
  have hs : j.toNat % 16 = i.toNat % 16 := congrArg Fin.val h16
  have hk : j.toNat % 5 = i.toNat % 5 := congrArg Fin.val h5
  exact BitVec.eq_of_toNat_eq (by omega)

/-- Settles O37: π sees the low four bits of STEP only, r counts the ends of rounds, and the two columns fix STEP. -/
theorem selectorsComeFromTheBitsOfStep : Obligations.SelectorsComeFromTheBitsOfStep := by
  intro i hi
  rw [stepLow_toNat]
  refine ⟨rfl, ?_, rfl, rfl, roundSel_row i.toNat, fun j hj => step_eq_of_columns hi hj⟩
  show (9 * i.toNat + 5) % 16 = (9 * (i.toNat % 16) + 5) % 16
  omega

end Sys2Proof.Machine

/-! PROOFS of the statements about the padding unit (spec/40_padding.md): the padded length, the bit view and the byte view, and the
invariants R128. -/

namespace Sys2Proof.Machine

/-! ## The padded length (40_padding.md R122, R124, R125) -/

@[simp] theorem Message.len_val (m : Message) : m.len.val = m.val.length := rfl

/-- All but the length field is 64 bits shorter than PLEN. -/
theorem padBits_front_length (m : Message) :
    (msgBits m.val ++ [true] ++ List.replicate (zeroFill (8 * m.len.val)) false).length = paddedLength m.val.length - 64 := by
  simp only [List.length_append, msgBits_length, List.length_singleton, List.length_replicate, Message.len_val, paddedLength,
    Nat.add_sub_cancel]

/-- The padded sequence is as long as PLEN says. -/
@[simp] theorem padBits_length (m : Message) : (padBits m).length = paddedLength m.val.length := by
  rw [padBits, List.length_append, padBits_front_length, beBits_length]
  exact Nat.sub_add_cancel (Nat.le_add_left ..)

/-- PLEN is NB blocks of 512 bits. -/
theorem paddedLength_eq (n : Nat) : paddedLength n = 512 * numBlocks n := by
  have hz := zeroFill_spec (8 * n)
  unfold paddedLength numBlocks
  omega

/-- Behind a message of whole bytes the zero fill is between 7 and 511 (40_padding.md R128 (5)). -/
theorem paddedLength_bounds (n : Nat) : 8 * n + 72 ≤ paddedLength n ∧ paddedLength n ≤ 8 * n + 576 := by
  rw [paddedLength_eq, numBlocks]
  omega

/-- Settles O42, by the two forms of PLEN. -/
theorem paddedLengthIsWholeBlocks : Obligations.PaddedLengthIsWholeBlocks := by
  intro m
  have hblocks : (padBits m).length = 512 * numBlocks m.val.length := by rw [padBits_length, paddedLength_eq]
  refine ⟨?_, by omega, by omega, rfl, numBlocks_pos _⟩
  have hz := zeroFill_spec (8 * m.val.length)
  rw [padBits_length, paddedLength]
  omega

/-! ## The bit view, part by part (40_padding.md R126) -/

section
variable (msg : Nat → Byte) (n : MsgLen) {j q : Nat}

theorem padBit_message (h : j < 8 * n.val) : padBit msg n j = (msg (j / 8)).getLsbD (7 - j % 8) := if_pos h

@[simp] theorem padBit_terminator : padBit msg n (8 * n.val) = true := by simp [padBit]

theorem padBit_zero (h : 8 * n.val < j) (h' : j < paddedLength n.val - 64) : padBit msg n j = false := by
  simp [padBit, h', h.not_gt, h.ne']

theorem padBit_lengthField (h : paddedLength n.val - 64 ≤ j) :
    padBit msg n j = (8 * n.val).testBit (63 - (j - (paddedLength n.val - 64))) := by
  have hb := paddedLength_bounds n.val
  rw [padBit, if_neg (by omega), if_neg (by omega), if_neg (by omega)]

/-! ## The byte view, part by part (40_padding.md R127) -/

theorem padByte_of_lt (h : q < n.val) : padByte msg n q = msg q := if_pos h

@[simp] theorem padByte_terminator : padByte msg n n.val = 0x80#8 := by simp [padByte]

theorem padByte_zero (h : n.val < q) (h' : q < 64 * numBlocks n.val - 8) : padByte msg n q = 0x00#8 := by
  simp [padByte, h', h.not_gt, h.ne']

theorem padByte_lengthField (h : 64 * numBlocks n.val - 8 ≤ q) :
    padByte msg n q = BitVec.ofNat 8 (8 * n.val / 2 ^ (8 * (64 * numBlocks n.val - 1 - q))) := by
  have hb := paddedLength_bounds n.val
  have hnb := paddedLength_eq n.val
  rw [padByte, if_neg (by omega), if_neg (by omega), if_neg (by omega)]

/-! ## The two views agree -/

/-- Bit 7 - r of the terminator byte: the terminator is its first bit, and zeros follow. -/
theorem terminatorByte_getLsbD : ∀ r : Fin 8, (0x80#8).getLsbD (7 - r.val) = decide (r.val = 0) := by decide

/-- Bit j of the padded sequence is bit j mod 8 of pad byte j div 8, most significant first. -/
theorem padBit_eq_padByte (h : j < paddedLength n.val) :
    padBit msg n j = (padByte msg n (j / 8)).getLsbD (7 - j % 8) := by
  have hb := paddedLength_bounds n.val
  have hnb := paddedLength_eq n.val
  rcases lt_trichotomy (j / 8) n.val with hq | hq | hq
  · rw [padBit_message msg n (by omega), padByte_of_lt msg n hq]
  · have hbit := terminatorByte_getLsbD ⟨j % 8, Nat.mod_lt _ (by decide)⟩
    rw [hq, padByte_terminator, hbit]
    by_cases hr : j % 8 = 0
    · have hj : j = 8 * n.val := by omega
      simp [hj]
    · rw [padBit_zero msg n (by omega) (by omega), decide_eq_false hr]
  · by_cases hz : j < paddedLength n.val - 64
    · rw [padBit_zero msg n (by omega) hz, padByte_zero msg n hq (by omega), BitVec.getLsbD_zero]
    · have hlt : 7 - j % 8 < 8 := by omega
      rw [padBit_lengthField msg n (by omega), padByte_lengthField msg n (by omega), BitVec.getLsbD_ofNat,
        decide_eq_true hlt, Bool.true_and, Nat.testBit_div_two_pow]
      congr 1
      omega

end

/-! ## The padded sequence, part by part (40_padding.md R124) -/

/-- The sequence begins with the message bits. -/
theorem padBits_take (m : Message) : (padBits m).take (8 * m.val.length) = msgBits m.val := by
  rw [padBits, List.append_assoc, List.append_assoc]
  exact List.take_left' (msgBits_length _)

/-- The sequence ends with the length field. -/
theorem padBits_drop (m : Message) :
    (padBits m).drop (paddedLength m.val.length - 64) = beBits 64 (8 * m.val.length) :=
  List.drop_left' (padBits_front_length m)

/-- Between the two stand the terminator and the zero fill. -/
theorem padBits_getElem?_fill {m : Message} {j : Nat} (h : 8 * m.val.length ≤ j)
    (h' : j < paddedLength m.val.length - 64) : (padBits m)[j]? = some (decide (j = 8 * m.val.length)) := by
  rw [padBits, List.getElem?_append_left (by rwa [padBits_front_length]), List.append_assoc,
    List.getElem?_append_right (by rwa [msgBits_length]), msgBits_length]
  obtain ⟨k, rfl⟩ := Nat.exists_eq_add_of_le h
  cases k with
  | zero => simp
  | succ k =>
    have hk : k < zeroFill (8 * m.val.length) := by rw [paddedLength] at h'; omega
    simp [hk]

/-- Bit j of the sequence is the bit the on-demand view gives: one case for the message, one for the fill, one for the length
field. -/
theorem padBits_getElem? (m : Message) {j : Nat} (h : j < paddedLength m.val.length) :
    (padBits m)[j]? = some (padBit (listByte m.val) m.len j) := by
  rcases Nat.lt_or_ge j (8 * m.val.length) with hm | hm
  · rw [padBit_message _ m.len hm, ← msgBits_getElem? m.val j hm, ← padBits_take, List.getElem?_take_of_lt hm]
  · rcases Nat.lt_or_ge j (paddedLength m.val.length - 64) with hf | hf
    · rw [padBits_getElem?_fill hm hf]
      rcases hm.eq_or_lt with rfl | hlt
      · exact congrArg some ((decide_eq_true rfl).trans (padBit_terminator _ m.len).symm)
      · rw [padBit_zero _ m.len hlt hf, decide_eq_false hlt.ne']
    · obtain ⟨k, rfl⟩ := Nat.exists_eq_add_of_le hf
      have hk : k < (beBits 64 (8 * m.val.length)).length := by rw [beBits_length]; omega
      rw [← List.getElem?_drop, padBits_drop, List.getElem?_eq_getElem hk, beBits_getElem, padBit_lengthField _ m.len hf]
      simp

/-- Settles O44, by the parts of the sequence. -/
theorem padBitsOnDemandAreThePaddedSequence : Obligations.PadBitsOnDemandAreThePaddedSequence :=
  fun m _ hj => padBits_getElem? m (padBits_length m ▸ hj)

/-- Settles O43: the two sides are equally long, and bit j of each is bit j mod 8 of pad byte j div 8. -/
theorem padBytesSpellThePaddedSequence : Obligations.PadBytesSpellThePaddedSequence := by
  intro m
  have hlen : paddedLength m.val.length = 512 * numBlocks m.len.val := paddedLength_eq m.val.length
  refine List.ext_getElem? fun j => ?_
  rw [getElem?_flatMap_bytes _ fun q => beBits_length 8 _]
  rcases Nat.lt_or_ge j (paddedLength m.val.length) with hj | hj
  · have hr : j % 8 < (beBits 8 (padByte (listByte m.val) m.len (j / 8)).toNat).length := by rw [beBits_length]; omega
    rw [padBits_getElem? m hj, padBit_eq_padByte _ m.len hj, List.getElem?_range (by omega), Option.bind_some,
      List.getElem?_eq_getElem hr, beBits_getElem, BitVec.testBit_toNat]
  · rw [List.getElem?_eq_none (by simpa using hj), List.getElem?_eq_none (by rw [List.length_range]; omega),
      Option.bind_none]

/-! ## The invariants (40_padding.md R128) -/

/-- The last 64 bits spell L, which the bound on the message keeps below 2^64 (40_padding.md R129). -/
theorem uint_lengthField (m : Message) :
    uint ((padBits m).drop (paddedLength m.val.length - 64)) = 8 * m.val.length := by
  have hm := m.property
  rw [padBits_drop, uint_beBits, Nat.mod_eq_of_lt (by omega)]

/-- The eight bits of a byte give the byte. -/
theorem byte_eq_of_beBits {v v' : Byte} (h : beBits 8 v.toNat = beBits 8 v'.toNat) : v = v' := by
  have hu := congrArg uint h
  rw [uint_beBits, uint_beBits, Nat.mod_eq_of_lt v.isLt, Nat.mod_eq_of_lt v'.isLt] at hu
  exact BitVec.eq_of_toNat_eq hu

/-- The message bits give the message bytes. -/
theorem msgBits_injective : Function.Injective msgBits := by
  intro m
  induction m with
  | nil =>
    intro m' h
    have hlen := congrArg List.length h
    rw [msgBits_length, msgBits_length, List.length_nil] at hlen
    exact (List.length_eq_zero_iff.1 (by omega)).symm
  | cons v m ih =>
    intro m' h
    cases m' with
    | nil =>
      have hlen := congrArg List.length h
      rw [msgBits_length, msgBits_length, List.length_cons, List.length_nil] at hlen
      omega
    | cons v' m' =>
      obtain ⟨hv, hm⟩ := List.append_inj h (by simp)
      rw [byte_eq_of_beBits hv, ih hm]

/-- The length field gives L, and the first L bits give the message. -/
theorem padBits_injective : Function.Injective padBits := by
  intro m m' h
  have hplen : paddedLength m.val.length = paddedLength m'.val.length := by
    rw [← padBits_length, h, padBits_length]
  have hlen : 8 * m.val.length = 8 * m'.val.length := by
    rw [← uint_lengthField m, ← uint_lengthField m', h, hplen]
  refine Subtype.ext (msgBits_injective ?_)
  rw [← padBits_take m, ← padBits_take m', h, hlen]

/-- Settles O45, an invariant each. -/
theorem paddingInvariants : Obligations.PaddingInvariants := by
  refine ⟨fun m => ?_, fun _ _ h => padBits_injective h⟩
  obtain ⟨hlow, hhigh⟩ := paddedLength_bounds m.val.length
  rw [padBits_length]
  refine ⟨?_, uint_lengthField m, padBits_take m, ?_, fun j hj hj' => ?_, hlow, hhigh⟩
  · rw [paddedLength_eq, Nat.mul_mod_right]
  · rw [padBits_getElem?_fill le_rfl (by omega), decide_eq_true rfl]
  · rw [padBits_getElem?_fill hj.le hj', decide_eq_false hj.ne']

end Sys2Proof.Machine

/-! PROOFS of the statements about block and word decomposition, the word permutation ρ and the schedule buffer
(spec/41_block_words.md), and about π (spec/43_step.md R181). -/

namespace Sys2Proof.Machine

/-! ## Words of the padded sequence (41_block_words.md R140, R141) -/

/-- A concatenation of bytes without its first k bytes. -/
theorem drop_flatMap_bytes {α : Type} {f : α → List Bool} (hf : ∀ a, (f a).length = 8) (l : List α) (k : Nat) :
    (l.flatMap f).drop (8 * k) = (l.drop k).flatMap f := by
  induction k generalizing l with
  | zero => simp
  | succ k ih =>
    cases l with
    | nil => simp
    | cons a l =>
      rw [List.flatMap_cons, List.drop_succ_cons, ← ih l, Nat.mul_succ, Nat.add_comm, ← List.drop_drop,
        List.drop_left' (hf a)]

/-- The first n bytes of a concatenation of bytes. -/
theorem take_flatMap_bytes {α : Type} {f : α → List Bool} (hf : ∀ a, (f a).length = 8) (l : List α) (n : Nat) :
    (l.flatMap f).take (8 * n) = (l.take n).flatMap f := by
  induction n generalizing l with
  | zero => simp
  | succ n ih =>
    cases l with
    | nil => simp
    | cons a l =>
      rw [List.flatMap_cons, List.take_succ_cons, List.flatMap_cons, ← ih l, Nat.mul_succ, Nat.add_comm, ← hf a,
        List.take_length_add_append]

/-- Four bytes in sequence order, most significant bit first, spell the word made of them (20_memory.md R61, R62). -/
theorem uint_fourBytes (p0 p1 p2 p3 : Byte) :
    uint (beBits 8 p0.toNat ++ (beBits 8 p1.toNat ++ (beBits 8 p2.toNat ++ beBits 8 p3.toNat))) =
      (wordOfBytes p0 p1 p2 p3).toNat := by
  have hbyte (p : Byte) : uint (beBits 8 p.toNat) = p.toNat := by rw [uint_beBits, Nat.mod_eq_of_lt p.isLt]
  simp only [uint_append, hbyte, List.length_append, beBits_length, wordOfBytes_toNat]
  ring

/-- The 32 bits of the padded sequence from pad byte q on spell the word of the four pad bytes from q on. -/
theorem uint_padBits_word (m : Message) {q : Nat} (h : q + 4 ≤ 64 * numBlocks m.len.val) :
    uint (((padBits m).drop (8 * q)).take 32) =
      (wordOfBytes (padByte (listByte m.val) m.len q) (padByte (listByte m.val) m.len (q + 1))
        (padByte (listByte m.val) m.len (q + 2)) (padByte (listByte m.val) m.len (q + 3))).toNat := by
  have hlen (p : Nat) : (beBits 8 (padByte (listByte m.val) m.len p).toNat).length = 8 := beBits_length 8 _
  have hbytes : ((List.range (64 * numBlocks m.len.val)).drop q).take 4 = [q, q + 1, q + 2, q + 3] := by
    rw [List.range_eq_range', List.drop_range', List.take_range'_of_length_ge (by omega), Nat.zero_add,
      Nat.mul_one]
    rfl
  rw [padBytesSpellThePaddedSequence m, drop_flatMap_bytes hlen, take_flatMap_bytes hlen _ 4, hbytes, ← uint_fourBytes]
  simp only [List.flatMap_cons, List.flatMap_nil, List.append_nil]

/-- The words of a block of a message that was written are those of the message (41_block_words.md R141). -/
theorem loadBlock_message {s : State} {m : Message} (hM : s.MessageIs m) (k : Nat) :
    loadBlock s.messageByte m.len k = loadBlock (listByte m.val) m.len k :=
  loadBlock_congr m.len k fun a ha => by
    rw [← padByte_of_lt s.messageByte m.len ha, padByte_message hM, padByte_of_lt _ m.len ha]

/-- X[j] of block k spells the 32 bits from bit 512·k + 32·j on of the padded sequence (41_block_words.md R140, R141). -/
theorem loadBlock_get_toNat (m : Message) {k : Nat} (hk : k < numBlocks m.len.val) (j : Fin 16) :
    ((loadBlock (listByte m.val) m.len k).get j).toNat =
      uint (((padBits m).drop (512 * k + 32 * j.val)).take 32) := by
  have hbit : 512 * k + 32 * j.val = 8 * (64 * k + 4 * j.val) := by omega
  rw [loadBlock, words16_get, hbit, uint_padBits_word m (by omega)]
  rfl

/-- Settles O19: LDBLK loads the block of the message, and each of its words is one of the padded sequence. -/
theorem ldblkWordsSpellThePaddedMessage : Obligations.LdblkWordsSpellThePaddedMessage := by
  intro s m hl hp hM
  have hlen : m.len.val = s.mlen.toNat := hM.1.symm
  have hr : s.inRun = true := inRun_of_lawful hl (by simp [hp])
  obtain ⟨hblk, -, -⟩ := (inRun_iff s).1 hr
  refine ⟨_, exec_ldblk m.len hlen hp hr, fun j => ?_⟩
  show ((loadBlock s.messageByte m.len s.blk.toNat).get j).toNat = _
  rw [loadBlock_message hM]
  exact loadBlock_get_toNat m (hlen ▸ hblk) j

/-! ## The ROMs π and ρ (41_block_words.md R142, 43_step.md R181) -/

/-- 9 is its own inverse mod 16, so the steps that read word j of W are those at 9·j + 3 mod 16. -/
theorem piRom_eq_iff (i : Nat) (j : Fin 16) : piRom i = j ↔ i % 16 = (9 * j.val + 3) % 16 := by
  rw [piRom, Fin.ext_iff]
  show (9 * i + 5) % 16 = j.val ↔ _
  omega

theorem piRom_mod (i : Nat) : piRom i = piRom (i % 16) := by
  refine Fin.ext ?_
  show (9 * i + 5) % 16 = (9 * (i % 16) + 5) % 16
  omega

/-- The steps of a block whose index is c mod 16. -/
theorem range80_filter_mod : ∀ c : Fin 16, (List.range 80).filter (fun k => decide (k % 16 = c.val)) =
    [c.val, c.val + 16, c.val + 32, c.val + 48, c.val + 64] := by
  decide

/-- The five steps of a block that read word j of W. -/
theorem range80_filter_piRom (j : Fin 16) : ∃ i, i < 16 ∧
    (List.range 80).filter (fun k => piRom k == j) = [i, i + 16, i + 32, i + 48, i + 64] := by
  have hlt : (9 * j.val + 3) % 16 < 16 := Nat.mod_lt _ (by decide)
  refine ⟨(9 * j.val + 3) % 16, hlt, ?_⟩
  have hpi : (fun k => piRom k == j) = fun k => decide (k % 16 = (9 * j.val + 3) % 16) := by
    funext k
    rw [Bool.beq_eq_decide_eq, decide_eq_decide, piRom_eq_iff]
  rw [hpi]
  exact range80_filter_mod ⟨_, hlt⟩

/-- Of any sixteen consecutive steps exactly one reads word j of W. -/
theorem piRom_window (i : Nat) (j : Fin 16) :
    ∃ k, k < 16 ∧ piRom (i + k) = j ∧ ∀ k', k' < 16 → piRom (i + k') = j → k' = k := by
  refine ⟨(9 * j.val + 3 + 15 * i) % 16, Nat.mod_lt _ (by decide), ?_, fun k' hk' h => ?_⟩
  · rw [piRom_eq_iff]; omega
  · rw [piRom_eq_iff] at h; omega

theorem rhoRom_injective : Function.Injective rhoRom.get := by
  intro k k'
  revert k k'
  decide

/-- Settles O41: π by its inverse mod 16, ρ as an injection of a finite set into itself, and the two tables by their entries. -/
theorem piAndRhoAreBijections : Obligations.PiAndRhoAreBijections := by
  refine ⟨piRom_mod, by decide, range80_filter_piRom, piRom_window, by decide, fun j => ?_, by decide⟩
  obtain ⟨k, hk⟩ := Finite.surjective_of_injective rhoRom_injective j
  exact ⟨k, hk, fun k' hk' => rhoRom_injective (hk'.trans hk.symm)⟩

/-! ## The schedule buffer (41_block_words.md R144, 70_reset_and_hazards.md R321) -/

/-- Before the end of PERM nothing is asked of W. -/
theorem scheduleLoaded_of_phase {s : State} (h : s.phase = Phase.idle ∨ s.phase = Phase.ldblk ∨ s.phase = Phase.perm) :
    ScheduleLoaded s := by
  unfold ScheduleLoaded
  rcases h with h | h | h <;> rw [h] <;> exact fun hp => absurd hp (by decide)

theorem scheduleLoaded_congr {s t : State} (hp : t.phase = s.phase) (hx : t.x = s.x) (hw : t.w = s.w)
    (hs : ScheduleLoaded s) : ScheduleLoaded t := by
  rw [ScheduleLoaded, hp, hx, hw]; exact hs

/-- PERM loads W, SEED and the steps leave X and W alone, and in every other phase the engine ends before the end of PERM. -/
theorem engineTurn_keeps_scheduleLoaded {s t : State} (h : engineTurn s = .next t) (hs : ScheduleLoaded s) :
    ScheduleLoaded t := by
  rcases engineTurn_next h with
    ⟨-, rfl⟩ | ⟨-, -, n, -, rfl⟩ | ⟨-, -, rfl⟩ | ⟨hp, -, rfl⟩ | ⟨hp, -, -, rfl⟩ | ⟨-, -, rfl⟩
  · exact hs
  · exact scheduleLoaded_of_phase (.inr (.inr rfl))
  · exact fun _ => rfl
  · exact fun _ => hs (.inl hp)
  · have hw : s.w = permute s.x := hs (.inr (.inl hp))
    exact fun _ => by simpa [roundStep_eq] using hw
  · refine scheduleLoaded_of_phase ?_
    rw [advanceBlock_eq]
    split <;> simp

/-- A host access leaves PHASE, X and W alone, but for the START that is accepted, which goes to LDBLK. -/
theorem hostAccess_keeps_scheduleLoaded {acc : Access} {s t : State} (h : hostAccess acc s = .next t)
    (hs : ScheduleLoaded s) : ScheduleLoaded t := by
  rcases hostAccess_next_runOnly h with hrun | ⟨-, -, -, rfl⟩ | ⟨-, n, rfl⟩ | ⟨-, a, v, -, rfl⟩
  · exact scheduleLoaded_congr (by simpa using congrArg State.phase hrun) (by simpa using congrArg State.x hrun)
      (by simpa using congrArg State.w hrun) hs
  · exact scheduleLoaded_of_phase (.inr (.inl rfl))
  · exact hs
  · exact hs

/-- Settles O50: by the turn of the step; a reset leaves the engine idle. -/
theorem stepKeepsTheScheduleLoaded : Obligations.StepKeepsTheScheduleLoaded := by
  intro s t hs h
  rcases step_next h with ⟨-, ts, he⟩ | ⟨acc, ts, -, he⟩ | ⟨ts, -, rfl⟩
  · exact engineTurn_keeps_scheduleLoaded he hs
  · exact hostAccess_keeps_scheduleLoaded he hs
  · exact scheduleLoaded_of_phase (.inl rfl)

end Sys2Proof.Machine

/-! PROOFS of the statements about the round functions and the round selector (spec/42_round_functions.md). -/

namespace Sys2Proof.Machine

/-! ## Bit t of each round function (42_round_functions.md R160 to R164) -/

section
variable (b c d : Word)

theorem f1_getLsbD (t : Nat) :
    (f1 b c d).getLsbD t = (b.getLsbD t ^^ c.getLsbD t ^^ d.getLsbD t) := by
  simp only [f1, BitVec.getLsbD_xor]

variable {t : Nat} (ht : t < 32)
include ht

theorem f2_getLsbD :
    (f2 b c d).getLsbD t = (b.getLsbD t && c.getLsbD t || !b.getLsbD t && d.getLsbD t) := by
  simp only [f2, BitVec.getLsbD_or, BitVec.getLsbD_and, BitVec.getLsbD_not, ht, decide_true, Bool.true_and]

theorem f3_getLsbD :
    (f3 b c d).getLsbD t = ((b.getLsbD t || !c.getLsbD t) ^^ d.getLsbD t) := by
  simp only [f3, BitVec.getLsbD_xor, BitVec.getLsbD_or, BitVec.getLsbD_not, ht, decide_true, Bool.true_and]

theorem f4_getLsbD :
    (f4 b c d).getLsbD t = (b.getLsbD t && d.getLsbD t || c.getLsbD t && !d.getLsbD t) := by
  simp only [f4, BitVec.getLsbD_or, BitVec.getLsbD_and, BitVec.getLsbD_not, ht, decide_true, Bool.true_and]

theorem f5_getLsbD :
    (f5 b c d).getLsbD t = (b.getLsbD t ^^ (c.getLsbD t || !d.getLsbD t)) := by
  simp only [f5, BitVec.getLsbD_xor, BitVec.getLsbD_or, BitVec.getLsbD_not, ht, decide_true, Bool.true_and]

end

/-- The five formulas on single bits, tabulated over the rows 000 to 111 of (b, c, d). -/
theorem roundFn_bit_tables : ∀ b c d : Bool,
    let row := 4 * b.toNat + 2 * c.toNat + d.toNat
    (b ^^ c ^^ d).toNat = [0, 1, 1, 0, 1, 0, 0, 1].getD row 0 ∧
    (b && c || !b && d).toNat = [0, 1, 0, 1, 0, 0, 1, 1].getD row 0 ∧
    ((b || !c) ^^ d).toNat = [1, 0, 0, 1, 1, 0, 1, 0].getD row 0 ∧
    (b && d || c && !d).toNat = [0, 0, 1, 0, 0, 1, 1, 1].getD row 0 ∧
    (b ^^ (c || !d)).toNat = [1, 0, 1, 1, 0, 1, 0, 0].getD row 0 := by
  decide

/-- Settles O38: the formulas are the definitions, and bit t of each is its formula on the bits t, whose table is finite. -/
theorem roundFunctionsFollowTheirTruthTables : Obligations.RoundFunctionsFollowTheirTruthTables := by
  intro b c d t ht
  refine ⟨rfl, rfl, rfl, rfl, rfl, ?_⟩
  simp only [roundFn, f1_getLsbD, f2_getLsbD b c d ht, f3_getLsbD b c d ht, f4_getLsbD b c d ht, f5_getLsbD b c d ht]
  exact roundFn_bit_tables (b.getLsbD t) (c.getLsbD t) (d.getLsbD t)

/-! ## The rounds and their steps (42_round_functions.md R165, R166) -/

theorem Round.row_add_one (r : Round) : r.row.val + 1 = r.number := by
  cases r <;> rfl

/-- The selector's answers, each with the whole range of its steps: R165's overlap at step 32 goes to round 2. -/
theorem roundSel_cases (i : Nat) :
    (i ≤ 16 ∧ roundSel i = .r1) ∨
    (17 ≤ i ∧ i ≤ 32 ∧ roundSel i = .r2) ∨
    (33 ≤ i ∧ i ≤ 47 ∧ roundSel i = .r3) ∨
    (48 ≤ i ∧ i ≤ 63 ∧ roundSel i = .r4) ∨
    (64 ≤ i ∧ roundSel i = .r5) := by
  unfold roundSel
  split_ifs with h1 h2 h3 h4
  · exact .inl ⟨h1, rfl⟩
  · exact .inr (.inl ⟨h2.1, h2.2, rfl⟩)
  · exact .inr (.inr (.inl ⟨by omega, by omega, rfl⟩))
  · exact .inr (.inr (.inr (.inl ⟨h4.1, by omega, rfl⟩)))
  · exact .inr (.inr (.inr (.inr ⟨by omega, rfl⟩)))

/-- Settles O40: the ranges of the five answers exclude each other, so each answer has exactly its own. -/
theorem roundsOwnTheirSteps : Obligations.RoundsOwnTheirSteps := by
  intro i hi
  rcases roundSel_cases i with ⟨h, hr⟩ | ⟨h, h', hr⟩ | ⟨h, h', hr⟩ | ⟨h, h', hr⟩ | ⟨h, hr⟩ <;>
    simp only [hr, Round.row_add_one, Round.number, true_iff, and_true] <;>
    omega

end Sys2Proof.Machine

/-! PROOFS of the statements about the shifter and the five STEP micro-operations (spec/43_step.md). -/

namespace Sys2Proof.Machine

/-! ## The shifter (43_step.md R183) -/

theorem shl32_toNat (x : Word) (s : Fin 32) : (shl32 x s).toNat = x.toNat * 2 ^ s.val % 2 ^ 32 := by
  rw [shl32, BitVec.toNat_shiftLeft, Nat.shiftLeft_eq]

theorem shl32_getLsbD (x : Word) (s : Fin 32) {t : Nat} (ht : t < 32) :
    (shl32 x s).getLsbD t = (decide (s.val ≤ t) && x.getLsbD (t - s.val)) := by
  rw [shl32, BitVec.getLsbD_shiftLeft, decide_eq_true ht, Bool.true_and, ← decide_not, decide_eq_decide.2 Nat.not_lt]

theorem shl32_zero (x : Word) : shl32 x 0 = x := BitVec.shiftLeft_zero x

/-- A shift by 31 keeps bit 0 alone, as bit 31. -/
theorem shl32_last (x : Word) : shl32 x 31 = if x.toNat % 2 = 1 then 0x80000000#32 else 0x00000000#32 := by
  have hsh : (shl32 x 31).toNat = x.toNat * 2 ^ 31 % 2 ^ 32 := shl32_toNat x 31
  apply BitVec.eq_of_toNat_eq
  split
  · show (shl32 x 31).toNat = 2 ^ 31
    omega
  · show (shl32 x 31).toNat = 0
    omega

/-- Reducing a number mod 2^32 before the shift loses nothing that the shift keeps. -/
theorem shl32_ofNat_toNat (n : Nat) (s : Fin 32) : (shl32 (BitVec.ofNat 32 n) s).toNat = n * 2 ^ s.val % 2 ^ 32 := by
  rw [shl32_toNat, BitVec.toNat_ofNat, Nat.mod_mul_mod]

/-- Settles O39: each clause is one of the rules above. -/
theorem shifterIsAPlainLeftShift : Obligations.ShifterIsAPlainLeftShift := fun x s =>
  ⟨shl32_toNat x s, fun _ ht => shl32_getLsbD x s ht, shl32_zero x, shl32_last x, fun n => (shl32_ofNat_toNat n s).symm⟩

/-! ## The STEP micro-operations (43_step.md R185 to R190)

The registers that R186 to R190 write out for round r are `roundRegs` at r by definition. -/

/-- In ROUND the gate of a micro-operation opens for the one that STEP decodes to (45_sequencer.md R235). -/
theorem whenInRun_of_decodeRound {j : Instr} {s : State} (k : Result) (hl : s.lawful = true) (hp : s.phase = Phase.round)
    (hd : decodeRound s.stepIdx = .instr j) : whenInRun j s (fun _ => k) = k :=
  whenInRun_of _ ((selected_round hp).trans hd) (inRun_of_lawful hl (by simp [hp]))

/-- A gated STEP below 79 writes the five registers of its round and moves STEP on. -/
theorem whenInRun_roundStep_lt {j : Instr} {s : State} (r : Round) (hl : s.lawful = true) (hp : s.phase = Phase.round)
    (hd : decodeRound s.stepIdx = .instr j) (hi : s.stepIdx.toNat < 79) :
    whenInRun j s (fun _ => .next (roundStep r s.stepIdx s)) =
      .next { s with work := roundRegs s.cfg s.w r s.stepIdx.toNat s.work, stepIdx := s.stepIdx + 1#7 } := by
  rw [whenInRun_of_decodeRound _ hl hp hd, roundStep_lt s hi]

/-- A gated STEP at any index: the registers of its round, then STEP moves on below 79 and PHASE moves to ACCUM at 79. -/
theorem whenInRun_roundStep {j : Instr} {s : State} (r : Round) (hl : s.lawful = true) (hp : s.phase = Phase.round)
    (hd : decodeRound s.stepIdx = .instr j) :
    whenInRun j s (fun _ => .next (roundStep r s.stepIdx s)) =
      .next { s with
        work := roundRegs s.cfg s.w r s.stepIdx.toNat s.work
        stepIdx := if s.stepIdx.toNat < 79 then s.stepIdx + 1#7 else s.stepIdx
        phase := if s.stepIdx.toNat < 79 then Phase.round else Phase.accum } := by
  rw [whenInRun_of_decodeRound _ hl hp hd, roundStep_eq, hp]

/-- Settles O22: the round function is F1, the row is 0, and no step of round 1 is the last. -/
theorem stepF1Result : Obligations.StepF1Result := by
  rintro s _ hl hp rfl hi
  exact whenInRun_roundStep_lt .r1 hl hp (decodeRound_f1 hi) (by omega)

/-- Settles O23: the round function is F2, the row is 1, and no step of round 2 is the last. -/
theorem stepF2Result : Obligations.StepF2Result := by
  rintro s _ hl hp rfl hi hi'
  exact whenInRun_roundStep_lt .r2 hl hp (decodeRound_f2 hi hi') (by omega)

/-- Settles O24: the round function is F3, the row is 2, and no step of round 3 is the last. -/
theorem stepF3Result : Obligations.StepF3Result := by
  rintro s _ hl hp rfl hi hi'
  exact whenInRun_roundStep_lt .r3 hl hp (decodeRound_f3 hi hi') (by omega)

/-- Settles O25: the round function is F4, the row is 3, and no step of round 4 is the last. -/
theorem stepF4Result : Obligations.StepF4Result := by
  rintro s _ hl hp rfl hi hi'
  exact whenInRun_roundStep_lt .r4 hl hp (decodeRound_f4 hi hi') (by omega)

/-- Settles O26: the round function is F5, the row is 4, and the step at 79 goes to ACCUM instead of moving STEP on. -/
theorem stepF5Result : Obligations.StepF5Result := by
  rintro s _ hl hp rfl hi hi'
  exact whenInRun_roundStep .r5 hl hp (decodeRound_f5 hi hi')

end Sys2Proof.Machine

/-! PROOFS of the statements about the chaining accumulator and the output formatter (spec/44_chaining_output.md). -/

namespace Sys2Proof.Machine

/-! ## ACCUM (44_chaining_output.md R210, 45_sequencer.md R236) -/

/-- ACCUM in a run adds the working registers into H, then moves BLK and PHASE on or ends the run. -/
theorem exec_accum {s : State} (hp : s.phase = Phase.accum) (hr : s.inRun = true) :
    exec .accum s = .next { s with
      h := addLanes s.h s.work
      blk := if s.blk.toNat + 1 < numBlocks s.mlen.toNat then s.blk + 1#56 else s.blk
      phase := if s.blk.toNat + 1 < numBlocks s.mlen.toNat then Phase.ldblk else Phase.idle
      done := if s.blk.toNat + 1 < numBlocks s.mlen.toNat then s.done else true } :=
  (whenInRun_of _ (selected_accum hp) hr).trans (congrArg Host.Outcome.next (advanceBlock_eq _))

/-- In a run NB is below 2^56, so BLK goes up without wrapping (10_state.md R28). -/
theorem blk_add_one_toNat {s : State} (hr : s.inRun = true) (h : s.blk.toNat + 1 < numBlocks s.mlen.toNat) :
    (s.blk + 1#56).toNat = s.blk.toNat + 1 := by
  obtain ⟨-, hm, -⟩ := (inRun_iff s).1 hr
  have hnb := numBlocks_le hm
  bv_omega

/-- Settles O27: the sums are those of `addLanes`; whether a further block follows decides BLK, PHASE and DONE. -/
theorem accumAddsAndMovesOn : Obligations.AccumAddsAndMovesOn := by
  intro s hl hp
  have hr : s.inRun = true := inRun_of_lawful hl (by simp [hp])
  obtain ⟨-, -, hd⟩ := (inRun_iff s).1 hr
  refine ⟨_, exec_accum hp hr, BitVec.toNat_add _ _, BitVec.toNat_add _ _, BitVec.toNat_add _ _, BitVec.toNat_add _ _,
    BitVec.toNat_add _ _, fun hmore => ?_, fun hlast => ?_, rfl⟩
  · have hblk := blk_add_one_toNat hr hmore
    exact ⟨(congrArg BitVec.toNat (if_pos hmore)).trans hblk, if_pos hmore, (if_pos hmore).trans hd⟩
  · have hmore : ¬ s.blk.toNat + 1 < numBlocks s.mlen.toNat := hlast.not_lt
    exact ⟨if_neg hmore, if_neg hmore, if_neg hmore⟩

/-! ## The five words laid out as bytes and as characters -/

/-- Entry j of part i, as an entry of the concatenation of parts of one length n. -/
theorem getElem?_flatMap_part {α β : Type} {n j : Nat} (hj : j < n) {f : α → List β} (hf : ∀ a, (f a).length = n)
    (l : List α) (i : Nat) : (l.flatMap f)[n * i + j]? = (l[i]?).bind (fun a => (f a)[j]?) := by
  induction l generalizing i with
  | nil => simp
  | cons a l ih =>
    rw [List.flatMap_cons]
    cases i with
    | zero =>
      rw [Nat.mul_zero, Nat.zero_add, List.getElem?_append_left ((hf a).symm ▸ hj)]
      rfl
    | succ i =>
      have hsplit : n * (i + 1) + j = (f a).length + (n * i + j) := by rw [hf]; ring
      rw [hsplit, List.getElem?_append_right (Nat.le_add_right _ _), Nat.add_sub_cancel_left, ih, List.getElem?_cons_succ]

@[simp] theorem wordBytes_length (v : Word) : (wordBytes v).length = 4 := rfl

@[simp] theorem hex8_length (v : Word) : (hex8 v).length = 8 := rfl

/-- Byte m of a word (20_memory.md R64). -/
theorem wordBytes_getElem? (v : Word) {m : Nat} (hm : m < 4) : (wordBytes v)[m]? = some (v.extractLsb' (24 - 8 * m) 8) := by
  simp [wordBytes, List.getElem?_range hm]

/-- Character j of HEX8 (44_chaining_output.md R214). -/
theorem hex8_getElem? (v : Word) {j : Nat} (hj : j < 8) :
    (hex8 v)[j]? = some (hexDigit (v.extractLsb' (4 * (7 - j)) 4)) := by
  simp [hex8, List.getElem?_range hj]

/-- Word k of the digest is H[k]. -/
theorem digestWords_getElem? (h : Five) (k : Fin 5) : (digestWords h)[k.val]? = some ([h.a, h.b, h.c, h.d, h.e].get k) :=
  List.getElem?_eq_getElem (l := digestWords h) k.isLt

@[simp] theorem digestBytes_length (h : Five) : (digestBytes h).length = 20 := rfl

@[simp] theorem digestText_length (h : Five) : (digestText h).length = 40 := rfl

/-- DB[4k + m] is byte m of H[k], the most significant first (44_chaining_output.md R213). -/
theorem digestBytes_getElem? (h : Five) (k : Fin 5) {m : Nat} (hm : m < 4) :
    (digestBytes h)[4 * k.val + m]? = some (([h.a, h.b, h.c, h.d, h.e].get k).extractLsb' (24 - 8 * m) 8) := by
  rw [digestBytes, getElem?_flatMap_part hm wordBytes_length, digestWords_getElem?, Option.bind_some,
    wordBytes_getElem? _ hm]

/-- Character 8k + j of the text is character j of HEX8(H[k]) (44_chaining_output.md R214). -/
theorem digestText_getElem? (h : Five) (k : Fin 5) {j : Nat} (hj : j < 8) :
    (digestText h)[8 * k.val + j]? = some (hexDigit (([h.a, h.b, h.c, h.d, h.e].get k).extractLsb' (4 * (7 - j)) 4)) := by
  rw [digestText, getElem?_flatMap_part hj hex8_length, digestWords_getElem?, Option.bind_some, hex8_getElem? _ hj]

/-! ## The digits of the nibbles (44_chaining_output.md R214, R215) -/

/-- The digit of each nibble is its entry in the table of the sixteen digits (44_chaining_output.md R214). -/
theorem hexDigits_getElem? : ∀ n : BitVec 4, "0123456789abcdef".toList[n.toNat]? = some (hexDigit n) := by decide

theorem extractLsb'_toNat_div {w : Nat} (v : BitVec w) (i n : Nat) :
    (v.extractLsb' i n).toNat = v.toNat / 2 ^ i % 2 ^ n := by
  rw [BitVec.extractLsb'_toNat, Nat.shiftRight_eq_div_pow]

/-- Settles O46: character 7 - q of a word is the digit of its nibble q. -/
theorem textDigestIsFortyHexDigits : Obligations.TextDigestIsFortyHexDigits := by
  refine fun h => ⟨digestText_length h, fun k q => ?_⟩
  have hq : 7 - (7 - q.val) = q.val := by omega
  rw [digestText_getElem? h k (by omega), hq, ← hexDigits_getElem?, extractLsb'_toNat_div]
  rfl

/-! ## The text spells the bytes (44_chaining_output.md R213, R214) -/

/-- The two digits of a byte, high nibble first. -/
def byteHex (v : Byte) : List Char := [hexDigit (v.extractLsb' 4 4), hexDigit (v.extractLsb' 0 4)]

@[simp] theorem byteHex_length (v : Byte) : (byteHex v).length = 2 := rfl

/-- HEX8 of a word is the digits of its four bytes in sequence order: a nibble of a byte is one of the word. -/
theorem flatMap_byteHex_wordBytes (v : Word) : (wordBytes v).flatMap byteHex = hex8 v := by
  have hnib (i j : Nat) (hj : j + 4 ≤ 8) : (v.extractLsb' i 8).extractLsb' j 4 = v.extractLsb' (i + j) 4 := by
    refine BitVec.eq_of_getLsbD_eq fun t ht => ?_
    have hjt : j + t < 8 := by omega
    simp only [BitVec.getLsbD_extractLsb', ht, hjt, decide_true, Bool.true_and, Nat.add_assoc]
  simp [wordBytes, hex8, byteHex, List.range_succ, hnib]

/-- The text digest is the digits of the twenty bytes in order. -/
theorem flatMap_byteHex_digestBytes (h : Five) : (digestBytes h).flatMap byteHex = digestText h := by
  simp only [digestBytes, digestText, List.flatMap_assoc, flatMap_byteHex_wordBytes]

theorem byteHex_high (v : Byte) : (byteHex v)[0]? = "0123456789abcdef".toList[v.toNat / 16]? := by
  have hv := v.isLt
  have hn : (v.extractLsb' 4 4).toNat = v.toNat / 16 := by
    rw [extractLsb'_toNat_div]
    omega
  rw [← hn, hexDigits_getElem?]
  rfl

theorem byteHex_low (v : Byte) : (byteHex v)[1]? = "0123456789abcdef".toList[v.toNat % 16]? := by
  have hn : (v.extractLsb' 0 4).toNat = v.toNat % 16 := BitVec.extractLsb'_toNat ..
  rw [← hn, hexDigits_getElem?]
  rfl

/-- Character j of the two that spell byte q. -/
theorem digestText_getElem?_of_byte {h : Five} {q : Nat} {v : Byte} (hv : (digestBytes h)[q]? = some v) {j : Nat}
    (hj : j < 2) : (digestText h)[2 * q + j]? = (byteHex v)[j]? := by
  rw [← flatMap_byteHex_digestBytes, getElem?_flatMap_part hj byteHex_length, hv, Option.bind_some]

/-! ## The digest as one number (44_chaining_output.md R212) -/

theorem toNat_append_add {n w : Nat} (x : BitVec n) (y : BitVec w) : (x ++ y).toNat = x.toNat * 2 ^ w + y.toNat := by
  rw [BitVec.toNat_append, ← Nat.shiftLeft_add_eq_or_of_lt y.isLt, Nat.shiftLeft_eq]

theorem digestValue_toNat (h : Five) : (digestValue h).toNat =
    h.a.toNat * 2 ^ 128 + h.b.toNat * 2 ^ 96 + h.c.toNat * 2 ^ 64 + h.d.toNat * 2 ^ 32 + h.e.toNat := by
  simp only [digestValue, toNat_append_add]
  ring

/-- Settles O47: a byte of a word each, the pair of digits of each byte, and the concatenation as a number. -/
theorem textDigestSpellsTheTwentyBytes : Obligations.TextDigestSpellsTheTwentyBytes := by
  refine fun h => ⟨digestBytes_length h, fun k m => ?_, fun q v hv => ⟨?_, ?_⟩, digestValue_toNat h⟩
  · rw [digestBytes_getElem? h k m.isLt, Option.map_some, extractLsb'_toNat_div]
  · exact (digestText_getElem?_of_byte hv Nat.two_pos).trans (byteHex_high v)
  · exact (digestText_getElem?_of_byte hv Nat.one_lt_two).trans (byteHex_low v)

end Sys2Proof.Machine

/-! PROOFS of the statements about the sequencer (spec/45_sequencer.md): what each micro-operation of a run does, that control
ignores data, and what a run does and computes under every interleaving with the host. -/

namespace Sys2Proof.Machine

/-! ## The engine runs the selected micro-operation (45_sequencer.md R230, R231) -/

theorem engineTurn_of_selected {s : State} {i : Instr} (h : s.selected = .instr i) : engineTurn s = exec i s := by
  rw [engineTurn, h]

/-- Settles O29: a micro-operation that is not selected is a fault, which is no next state. -/
theorem microOperationRunsOnlyWhenSelected : Obligations.MicroOperationRunsOnlyWhenSelected := by
  refine fun i s hi => ⟨exec_of_not_selected hi, fun t ht => ?_⟩
  by_contra hs
  cases (exec_of_not_selected hi hs).symm.trans ht

/-- Settles O31: the selected micro-operation does not depend on the list of turns. -/
theorem engineStepRunsTheDecodedMicroOperation : Obligations.EngineStepRunsTheDecodedMicroOperation :=
  fun _ _ hs => ⟨fun hts => (step_nil hts).trans (engineTurn_of_selected hs),
    fun _ hts => (step_engine hts).trans (engineTurn_of_selected hs)⟩

/-- Settles O17: WAIT is what IDLE selects, and the engine has the turn where none is listed. -/
theorem waitInIdleChangesNothing : Obligations.WaitInIdleChangesNothing := fun _ hp =>
  ⟨whenSelected_of _ (selected_idle hp), fun hts => (step_nil hts).trans (engineTurn_idle hp)⟩

/-! ## The micro-operations that prepare a block (45_sequencer.md R232 to R234) -/

/-- Word j of block k as a number: four pad bytes, the first the most significant (41_block_words.md R141). -/
theorem loadBlock_get_bytes (msg : Nat → Byte) (n : MsgLen) (k : Nat) (j : Fin 16) :
    ((loadBlock msg n k).get j).toNat =
      (padByte msg n (64 * k + 4 * j.val)).toNat * 2 ^ 24 + (padByte msg n (64 * k + 4 * j.val + 1)).toNat * 2 ^ 16 +
      (padByte msg n (64 * k + 4 * j.val + 2)).toNat * 2 ^ 8 + (padByte msg n (64 * k + 4 * j.val + 3)).toNat := by
  rw [loadBlock, words16_get, blockWord, wordOfBytes_toNat]

/-- Settles O18: LDBLK writes X, PHASE and the count of draws only. -/
theorem ldblkLoadsTheWordsOfTheBlock : Obligations.LdblkLoadsTheWordsOfTheBlock := fun s n hl hp hn =>
  ⟨_, exec_ldblk n hn hp (inRun_of_lawful hl (by simp [hp])), loadBlock_get_bytes s.messageByte n s.blk.toNat, rfl, rfl, rfl⟩

/-- Settles O20: the sources of W are the entries of the ρ ROM. -/
theorem permPermutesIntoW : Obligations.PermPermutesIntoW := fun _ hl hp =>
  whenInRun_of _ (selected_perm hp) (inRun_of_lawful hl (by simp [hp]))

/-- Settles O21: the five registers of H, copied all at once. -/
theorem seedCopiesTheChainingRegisters : Obligations.SeedCopiesTheChainingRegisters := fun _ hl hp =>
  whenInRun_of _ (selected_seed hp) (inRun_of_lawful hl (by simp [hp]))

/-! ## The ROUND phase (45_sequencer.md R235) -/

/-- Up to step 79 the row whose range contains the index is the one of the round that RoundSel names (30_encoding.md R94,
42_round_functions.md R165). -/
theorem decodeRound_stepInstr {i : BitVec 7} (hi : i.toNat ≤ 79) : decodeRound i = .instr (stepInstr i.toNat) := by
  unfold stepInstr
  rcases roundSel_cases i.toNat with ⟨h, hr⟩ | ⟨h, h', hr⟩ | ⟨h, h', hr⟩ | ⟨h, h', hr⟩ | ⟨h, hr⟩ <;>
    simp only [hr, BitVec.ofNat_toNat, BitVec.setWidth_eq]
  · exact decodeRound_f1 h
  · exact decodeRound_f2 h h'
  · exact decodeRound_f3 h h'
  · exact decodeRound_f4 h h'
  · exact decodeRound_f5 h hi

/-- STEP goes up without wrapping below 79. -/
theorem stepIdx_add_one_toNat {i : BitVec 7} (hi : i.toNat < 79) : (i + 1#7).toNat = i.toNat + 1 := by
  bv_omega

/-- Settles O28: the turn is that of the selected row, and its registers are those of the common datapath. -/
theorem roundPhaseRunsTheSelectedStep : Obligations.RoundPhaseRunsTheSelectedStep := by
  intro s hl hp
  obtain ⟨-, hstep, -⟩ := (lawful_iff s).1 hl
  have hi := hstep hp
  have hsel := (selected_round hp).trans (decodeRound_stepInstr hi)
  have hturn := engineTurn_round hp hi (inRun_of_lawful hl (by simp [hp]))
  rw [roundStep_eq] at hturn
  refine ⟨_, hturn, engineTurn_of_selected hsel, rfl, rfl, rfl, rfl, rfl, fun hlt => ?_, fun hlast => ?_, rfl⟩
  · exact ⟨(congrArg BitVec.toNat (if_pos hlt)).trans (stepIdx_add_one_toNat hlt), (if_pos hlt).trans hp⟩
  · have hlt : ¬ s.stepIdx.toNat < 79 := hlast.not_lt
    exact ⟨if_neg hlt, if_neg hlt⟩

/-! ## Every turn of the engine -/

/-- A lawful state has an engine's turn that answers next, in each of the six phases (45_sequencer.md R231 to R236). -/
theorem engineTurn_completes {s : State} (hl : s.lawful = true) : ∃ t, engineTurn s = .next t := by
  obtain ⟨hphase, hstep, -⟩ := (lawful_iff s).1 hl
  have hrun := inRun_of_lawful hl
  rcases selected_cases s with ⟨hp, -⟩ | ⟨hp, -⟩ | ⟨hp, -⟩ | ⟨hp, -⟩ | ⟨hp, -⟩ | ⟨hp, -⟩ | ⟨hp, -⟩
  · exact ⟨_, engineTurn_idle hp⟩
  · have hr := hrun (by simp [hp])
    exact ⟨_, engineTurn_ldblk ⟨_, inRun_lt hr⟩ rfl hp hr⟩
  · exact ⟨_, engineTurn_perm hp (hrun (by simp [hp]))⟩
  · exact ⟨_, engineTurn_seed hp (hrun (by simp [hp]))⟩
  · exact ⟨_, engineTurn_round hp (hstep hp) (hrun (by simp [hp]))⟩
  · exact ⟨_, engineTurn_accum hp (hrun (by simp [hp]))⟩
  · omega

theorem engineTurn_next_turns {s t : State} (h : engineTurn s = .next t) : t.turns = s.turns := by
  rcases engineTurn_next h with
    ⟨-, rfl⟩ | ⟨-, -, n, -, rfl⟩ | ⟨-, -, rfl⟩ | ⟨-, -, rfl⟩ | ⟨-, -, -, rfl⟩ | ⟨-, -, rfl⟩ <;>
    simp [roundStep_eq, advanceBlock_eq]

/-! ## Control ignores data (45_sequencer.md R241) -/

theorem roundStep_sameControl {s s' : State} (r r' : Round) (h : s.sameControl s') :
    (roundStep r s.stepIdx s).sameControl (roundStep r' s'.stepIdx s') := by
  obtain ⟨hp, hi, hb, hm⟩ := h
  simp [State.sameControl, roundStep_eq, hp, hi, hb, hm]

theorem advanceBlock_sameControl {s s' : State} (h : s.sameControl s') : (advanceBlock s).sameControl (advanceBlock s') := by
  obtain ⟨hp, hi, hb, hm⟩ := h
  simp [State.sameControl, advanceBlock_eq, hi, hb, hm]

/-- Settles O57, by the common phase: STEP alone decides the ROUND transition, BLK and MLEN alone that of ACCUM. -/
theorem controlFlowIgnoresData : Obligations.ControlFlowIgnoresData := by
  intro s s' hl hl' hc
  have ⟨hps, hi, hb, hm⟩ := hc
  have hrun' (hbusy : s.phase ≠ Phase.idle) : s'.inRun = true := inRun_of_lawful hl' (hps ▸ hbusy)
  obtain ⟨t, ht⟩ := engineTurn_completes hl
  rcases engineTurn_next ht with
    ⟨hp, rfl⟩ | ⟨hp, -, n, -, rfl⟩ | ⟨hp, -, rfl⟩ | ⟨hp, -, rfl⟩ | ⟨hp, -, hstep, rfl⟩ | ⟨hp, -, rfl⟩
  · exact ⟨_, _, ht, engineTurn_idle (hps ▸ hp), hc⟩
  · have hr' := hrun' (by simp [hp])
    exact ⟨_, _, ht, engineTurn_ldblk ⟨_, inRun_lt hr'⟩ rfl (hps ▸ hp) hr', rfl, hi, hb, hm⟩
  · exact ⟨_, _, ht, engineTurn_perm (hps ▸ hp) (hrun' (by simp [hp])), rfl, hi, hb, hm⟩
  · exact ⟨_, _, ht, engineTurn_seed (hps ▸ hp) (hrun' (by simp [hp])), rfl, rfl, hb, hm⟩
  · exact ⟨_, _, ht, engineTurn_round (hps ▸ hp) (hi ▸ hstep) (hrun' (by simp [hp])), roundStep_sameControl _ _ hc⟩
  · exact ⟨_, _, ht, engineTurn_accum (hps ▸ hp) (hrun' (by simp [hp])), advanceBlock_sameControl hc⟩

/-! ## The line of the trace at which a run stands (45_sequencer.md R237) -/

/-- The line of its block's trace that PHASE and STEP select. -/
def State.blockLine (s : State) : Nat :=
  if s.phase = Phase.ldblk then 0
  else if s.phase = Phase.perm then 1
  else if s.phase = Phase.seed then 2
  else if s.phase = Phase.round then 3 + s.stepIdx.toNat
  else 83

/-- The line of the run's trace at which a state of a run stands. -/
def State.line (s : State) : Nat := 84 * s.blk.toNat + s.blockLine

theorem blockLine_ldblk {s : State} (hp : s.phase = Phase.ldblk) : s.blockLine = 0 := by
  rw [State.blockLine, hp]; rfl

theorem blockLine_perm {s : State} (hp : s.phase = Phase.perm) : s.blockLine = 1 := by
  rw [State.blockLine, hp]; rfl

theorem blockLine_seed {s : State} (hp : s.phase = Phase.seed) : s.blockLine = 2 := by
  rw [State.blockLine, hp]; rfl

theorem blockLine_round {s : State} (hp : s.phase = Phase.round) : s.blockLine = 3 + s.stepIdx.toNat := by
  rw [State.blockLine, hp]; rfl

theorem blockLine_accum {s : State} (hp : s.phase = Phase.accum) : s.blockLine = 83 := by
  rw [State.blockLine, hp]; rfl

/-- A STEP goes to the next line: to the next step, or from the last one to ACCUM. -/
theorem blockLine_roundStep (r : Round) {s : State} (hp : s.phase = Phase.round) (hi : s.stepIdx.toNat ≤ 79) :
    (roundStep r s.stepIdx s).blockLine = s.blockLine + 1 := by
  rw [blockLine_round hp]
  by_cases hlt : s.stepIdx.toNat < 79
  · rw [roundStep_lt s hlt]
    refine Eq.trans (blockLine_round hp) ?_
    rw [stepIdx_add_one_toNat hlt, Nat.add_assoc]
  · rw [roundStep_last s (Nat.le_of_not_lt hlt), blockLine_accum rfl]
    omega

@[simp] theorem blockTrace_length : blockTrace.length = 84 := by simp [blockTrace]

@[simp] theorem runTrace_length (nb : Nat) : (runTrace nb).length = 84 * nb := by
  simp [runTrace, Nat.mul_comm]

theorem blockTrace_getElem?_step {i : Nat} (hi : i ≤ 79) : blockTrace[3 + i]? = some (stepInstr i) := by
  have hi' : i < 80 := by omega
  simp [blockTrace, Nat.add_comm 3 i, List.getElem?_append, hi']

/-- In a run the control word selects the instruction of the block's line. -/
theorem blockTrace_getElem?_blockLine {s : State} (hl : s.lawful = true) (hb : s.phase ≠ Phase.idle) :
    ∃ i, s.selected = .instr i ∧ blockTrace[s.blockLine]? = some i := by
  obtain ⟨hphase, hstep, -⟩ := (lawful_iff s).1 hl
  rcases selected_cases s with ⟨hp, -⟩ | ⟨hp, hs⟩ | ⟨hp, hs⟩ | ⟨hp, hs⟩ | ⟨hp, hs⟩ | ⟨hp, hs⟩ | ⟨hp, -⟩
  · exact absurd hp hb
  · exact ⟨_, hs, by rw [blockLine_ldblk hp]; rfl⟩
  · exact ⟨_, hs, by rw [blockLine_perm hp]; rfl⟩
  · exact ⟨_, hs, by rw [blockLine_seed hp]; rfl⟩
  · refine ⟨_, hs.trans (decodeRound_stepInstr (hstep hp)), ?_⟩
    rw [blockLine_round hp]
    exact blockTrace_getElem?_step (hstep hp)
  · exact ⟨_, hs, by rw [blockLine_accum hp]; rfl⟩
  · omega

/-- In a run the trace has at the state's line its block and the selected micro-operation. -/
theorem runTrace_getElem?_line {s : State} (hl : s.lawful = true) (hb : s.phase ≠ Phase.idle) :
    ∃ i, s.selected = .instr i ∧ (runTrace (numBlocks s.mlen.toNat))[s.line]? = some (s.blk.toNat, i) := by
  obtain ⟨i, hs, hi⟩ := blockTrace_getElem?_blockLine hl hb
  obtain ⟨hblk, -⟩ := (inRun_iff s).1 (inRun_of_lawful hl hb)
  have hlt : s.blockLine < 84 := blockTrace_length ▸ (List.getElem?_eq_some_iff.1 hi).1
  refine ⟨i, hs, ?_⟩
  rw [runTrace, State.line, getElem?_flatMap_part hlt (by simp)]
  simp [List.getElem?_range hblk, hi]

/-- ACCUM, after the last line of a block, goes to line 0 of the next, or ends the run. -/
theorem advanceBlock_line {s : State} (hp : s.phase = Phase.accum) (hr : s.inRun = true) :
    ((advanceBlock s).phase ≠ Phase.idle ∧ (advanceBlock s).line = s.line + 1) ∨
    ((advanceBlock s).phase = Phase.idle ∧ (advanceBlock s).done = true ∧
      s.line + 1 = 84 * numBlocks s.mlen.toNat) := by
  obtain ⟨hblk, -⟩ := (inRun_iff s).1 hr
  have hline : s.line = 84 * s.blk.toNat + 83 := by rw [State.line, blockLine_accum hp]
  by_cases hmore : s.blk.toNat + 1 < numBlocks s.mlen.toNat
  · rw [advanceBlock_more hmore]
    refine .inl ⟨by simp, ?_⟩
    rw [State.line, blockLine_ldblk rfl, blk_add_one_toNat hr hmore]
    omega
  · rw [advanceBlock_last hmore]
    exact .inr ⟨rfl, rfl, by omega⟩

/-- The engine's turn of a run goes to the next line, or ends the run after the last one. -/
theorem engineTurn_next_line {s t : State} (h : engineTurn s = .next t) (hb : s.phase ≠ Phase.idle) :
    (t.phase ≠ Phase.idle ∧ t.line = s.line + 1) ∨
    (t.phase = Phase.idle ∧ t.done = true ∧ s.line + 1 = 84 * numBlocks s.mlen.toNat) := by
  rcases engineTurn_next h with
    ⟨hp, -⟩ | ⟨hp, -, n, -, rfl⟩ | ⟨hp, -, rfl⟩ | ⟨hp, -, rfl⟩ | ⟨hp, -, hi, rfl⟩ | ⟨hp, hr, rfl⟩
  · exact absurd hp hb
  · exact .inl ⟨by simp, by rw [State.line, State.line, blockLine_ldblk hp, blockLine_perm rfl]⟩
  · exact .inl ⟨by simp, by rw [State.line, State.line, blockLine_perm hp, blockLine_seed rfl]⟩
  · exact .inl ⟨by simp, by rw [State.line, State.line, blockLine_seed hp, blockLine_round rfl]; rfl⟩
  · refine .inl ⟨?_, ?_⟩
    · rw [roundStep_eq]
      split <;> simp [hp]
    · rw [State.line, blockLine_roundStep _ hp hi, State.line, roundStep_eq, Nat.add_assoc]
  · exact advanceBlock_line (s := { s with h := addLanes s.h s.work }) hp hr

/-! ## What the registers of a run hold (44_chaining_output.md R216) -/

/-- The working registers after the first n steps of a block. -/
def workAfter (cfg : Cfg) (w : Vector Word 16) (regs : Five) (n : Nat) : Five :=
  (List.range n).foldl (fun r i => roundRegs cfg w (roundSel i) i r) regs

/-- The chaining registers after the first k blocks of a message. -/
def chainAfter (cfg : Cfg) (m : Message) (k : Nat) : Five := (List.range k).foldl (digestBlock cfg m) cfg.iv

theorem workAfter_succ (cfg : Cfg) (w : Vector Word 16) (regs : Five) (n : Nat) :
    workAfter cfg w regs (n + 1) = roundRegs cfg w (roundSel n) n (workAfter cfg w regs n) := by
  simp [workAfter, List.range_succ]

theorem workAfter_last (cfg : Cfg) (w : Vector Word 16) (regs : Five) : workAfter cfg w regs 80 = compressBlock cfg w regs :=
  rfl

theorem chainAfter_succ (cfg : Cfg) (m : Message) (k : Nat) :
    chainAfter cfg m (k + 1) = digestBlock cfg m (chainAfter cfg m k) k := by
  simp [chainAfter, List.range_succ]

theorem chainAfter_last (cfg : Cfg) (m : Message) : chainAfter cfg m (numBlocks m.len.val) = digest cfg m := rfl

/-- A state of a run in which the registers hold what Digest(CFG, M) has computed up to the state's line. -/
structure Hashing (m : Message) (s : State) : Prop where
  chain : s.h = chainAfter s.cfg m s.blk.toNat
  block : 1 ≤ s.blockLine → s.x = loadBlock (listByte m.val) m.len s.blk.toNat
  schedule : ScheduleLoaded s
  steps : 3 ≤ s.blockLine → s.work = workAfter s.cfg s.w s.h (s.blockLine - 3)

theorem hashing_runOnly {m : Message} {s : State} : Hashing m s.runOnly ↔ Hashing m s :=
  ⟨fun ⟨hc, hb, hs, hw⟩ => ⟨hc, hb, hs, hw⟩, fun ⟨hc, hb, hs, hw⟩ => ⟨hc, hb, hs, hw⟩⟩

/-- At line 0 of a block only the chain matters. -/
theorem hashing_of_ldblk {m : Message} {s : State} (hp : s.phase = Phase.ldblk)
    (hc : s.h = chainAfter s.cfg m s.blk.toNat) : Hashing m s where
  chain := hc
  block hl := by rw [blockLine_ldblk hp] at hl; omega
  schedule := scheduleLoaded_of_phase (.inr (.inl hp))
  steps hl := by rw [blockLine_ldblk hp] at hl; omega

/-- A STEP micro-operation takes the working registers one step on. -/
theorem hashing_roundStep {m : Message} {s : State} (hs : Hashing m s) (hp : s.phase = Phase.round)
    (hi : s.stepIdx.toNat ≤ 79) (hsch : ScheduleLoaded (roundStep (roundSel s.stepIdx.toNat) s.stepIdx s)) :
    Hashing m (roundStep (roundSel s.stepIdx.toNat) s.stepIdx s) := by
  have hline := blockLine_round hp
  have hwork : s.work = workAfter s.cfg s.w s.h s.stepIdx.toNat := by
    simpa [hline] using hs.steps (by omega)
  have hx := hs.block (by omega)
  refine ⟨?_, fun _ => ?_, hsch, fun _ => ?_⟩
  · simpa only [roundStep_eq] using hs.chain
  · simpa only [roundStep_eq] using hx
  · have hnext : s.blockLine + 1 - 3 = s.stepIdx.toNat + 1 := by omega
    rw [blockLine_roundStep _ hp hi, hnext]
    simp only [roundStep_eq]
    rw [workAfter_succ, ← hwork]

/-- The sum that ACCUM writes is the chain after one more block (44_chaining_output.md R210, R216). -/
theorem addLanes_of_hashing {m : Message} {s : State} (hs : Hashing m s) (hp : s.phase = Phase.accum) :
    addLanes s.h s.work = chainAfter s.cfg m (s.blk.toNat + 1) := by
  have hline := blockLine_accum hp
  have hx := hs.block (by omega)
  have hw : s.w = permute s.x := hs.schedule (.inr (.inr hp))
  have hwork : s.work = compressBlock s.cfg s.w s.h := by
    rw [hs.steps (by omega), hline, workAfter_last]
  rw [chainAfter_succ, digestBlock, ← hs.chain, ← hx, ← hw, ← hwork]

/-- ACCUM goes to the next block with its chain, or ends the run with the whole chain, the digest, in H. -/
theorem advanceBlock_hashing {m : Message} {s : State} (hr : s.inRun = true) (hlen : s.mlen.toNat = m.len.val)
    (hc : s.h = chainAfter s.cfg m (s.blk.toNat + 1)) :
    ((advanceBlock s).phase ≠ Phase.idle → Hashing m (advanceBlock s)) ∧
    ((advanceBlock s).phase = Phase.idle → (advanceBlock s).h = digest s.cfg m) := by
  obtain ⟨hblk, -⟩ := (inRun_iff s).1 hr
  by_cases hmore : s.blk.toNat + 1 < numBlocks s.mlen.toNat
  · rw [advanceBlock_more hmore]
    exact ⟨fun _ => hashing_of_ldblk rfl (by rw [blk_add_one_toNat hr hmore]; exact hc), by simp⟩
  · have hlast : s.blk.toNat + 1 = numBlocks m.len.val := by rw [← hlen]; omega
    rw [advanceBlock_last hmore]
    exact ⟨by simp, fun _ => by rw [← chainAfter_last, ← hlast]; exact hc⟩

/-- The engine's turn of a run computes the next line of Digest(CFG, M), and leaves the digest in H where it ends the run. -/
theorem engineTurn_keeps_hashing {m : Message} {s t : State} (h : engineTurn s = .next t) (hb : s.phase ≠ Phase.idle)
    (hM : s.MessageIs m) (hs : Hashing m s) :
    (t.phase ≠ Phase.idle → Hashing m t) ∧ (t.phase = Phase.idle → t.h = digest s.cfg m) := by
  have hsch := engineTurn_keeps_scheduleLoaded h hs.schedule
  rcases engineTurn_next h with
    ⟨hp, -⟩ | ⟨hp, -, n, hn, rfl⟩ | ⟨hp, -, rfl⟩ | ⟨hp, -, rfl⟩ | ⟨hp, -, hi, rfl⟩ | ⟨hp, hr, rfl⟩
  · exact absurd hp hb
  · obtain rfl : n = m.len := Fin.ext (hn.trans hM.1)
    refine ⟨fun _ => ⟨hs.chain, fun _ => loadBlock_message hM _, hsch, fun hl => ?_⟩, by simp⟩
    rw [blockLine_perm rfl] at hl
    omega
  · have hx := hs.block (blockLine_perm hp).ge
    refine ⟨fun _ => ⟨hs.chain, fun _ => hx, hsch, fun hl => ?_⟩, by simp⟩
    rw [blockLine_seed rfl] at hl
    omega
  · have hx := hs.block (by rw [blockLine_seed hp]; omega)
    exact ⟨fun _ => ⟨hs.chain, fun _ => hx, hsch, fun _ => by rw [blockLine_round rfl]; rfl⟩, by simp⟩
  · refine ⟨fun _ => hashing_roundStep hs hp hi hsch, fun hidle => ?_⟩
    rw [roundStep_eq] at hidle
    split at hidle
    · exact absurd hidle hb
    · simp at hidle
  · exact advanceBlock_hashing (s := { s with h := addLanes s.h s.work }) hr hM.1 (addLanes_of_hashing hs hp)

/-! ## The run that a START begins (45_sequencer.md R237, R238) -/

/-- `t` stands at line j of the run that began in `s`: the registers hold what was computed up to there of every message that
was written in `s`. -/
structure AtLine (s : State) (j : Nat) (t : State) : Prop where
  lawful : t.lawful = true
  busy : t.phase ≠ Phase.idle
  line : t.line = j
  msg : t.msg = s.msg
  mlen : t.mlen = s.mlen
  cfg : t.cfg = s.cfg
  hashing : ∀ m, s.MessageIs m → Hashing m t

/-- `t` stands at the end of the run that began in `s`. -/
structure RunEnded (s t : State) : Prop where
  idle : t.phase = Phase.idle
  done : t.done = true
  msg : t.msg = s.msg
  mlen : t.mlen = s.mlen
  cfg : t.cfg = s.cfg
  result : ∀ m, s.MessageIs m → t.h = digest s.cfg m

/-- Where a run stands shows in what it depends on. -/
theorem atLine_of_runOnly {s t u : State} {j : Nat} (ht : AtLine s j t) (h : u.runOnly = t.runOnly) : AtLine s j u where
  lawful := (lawful_of_runOnly h).trans ht.lawful
  busy := by have hp := congrArg State.phase h; exact fun hu => ht.busy (hp.symm.trans hu)
  line := (congrArg State.line h).trans ht.line
  msg := (congrArg State.msg h).trans ht.msg
  mlen := (congrArg State.mlen h).trans ht.mlen
  cfg := (congrArg State.cfg h).trans ht.cfg
  hashing m hM := hashing_runOnly.1 (h ▸ hashing_runOnly.2 (ht.hashing m hM))

/-- The write of START to CMD, accepted (46_host_commands.md R252). -/
theorem hostAccess_start {s : State} (hp : s.phase = Phase.idle) (hm : s.mlen.toNat ≤ s.cfg.msgBytes.val) :
    hostAccess (.wr 0x00 1#32) s = .next (acceptStart s) := by
  have hcmd : hostAccess (.wr 0x00 1#32) s = exec .start s := hostAccess_command (by decide) s
  rcases exec_start (lawful_idle hp) with ⟨hb, -⟩ | ⟨-, hlong, -⟩ | ⟨-, -, he⟩
  · exact absurd hp hb
  · omega
  · exact hcmd.trans he

/-- A run begins at line 0. -/
theorem atLine_acceptStart {s : State} (hm : s.mlen.toNat ≤ s.cfg.msgBytes.val) : AtLine s 0 (acceptStart s) where
  lawful := lawful_acceptStart hm
  busy := by simp
  line := by rw [State.line, blockLine_ldblk rfl]; rfl
  msg := rfl
  mlen := rfl
  cfg := rfl
  hashing _ _ := hashing_of_ldblk rfl rfl

/-- A host access inside the map leaves a run where it stands. -/
theorem hostAccess_atLine {s t : State} {j : Nat} {acc : Access} (ht : AtLine s j t)
    (hm : acc.inMap s.cfg.msgBytes.val = true) : ∃ u, hostAccess acc t = .next u ∧ AtLine s j u ∧ u.turns = t.turns := by
  obtain ⟨u, hu, hrun, hturns⟩ := hostAccess_busy ht.lawful ht.busy (ht.cfg ▸ hm)
  exact ⟨u, hu, atLine_of_runOnly ht hrun, hturns⟩

/-- The engine's turn moves a run on by one line, or ends it after the last one. -/
theorem engineTurn_atLine {s t : State} {j : Nat} (ht : AtLine s j t) :
    ∃ u, engineTurn t = .next u ∧ u.turns = t.turns ∧
      ((j + 1 < 84 * numBlocks s.mlen.toNat ∧ AtLine s (j + 1) u) ∨
       (j + 1 = 84 * numBlocks s.mlen.toNat ∧ RunEnded s u)) := by
  obtain ⟨u, hu⟩ := engineTurn_completes ht.lawful
  obtain ⟨hmsg, hmlen, hcfg, -⟩ := engineTurn_next_frame hu
  have hl := engineTurn_keeps_lawful hu
  have hdata (m : Message) (hM : s.MessageIs m) :=
    engineTurn_keeps_hashing hu ht.busy (by rw [State.MessageIs, ht.msg, ht.mlen]; exact hM) (ht.hashing m hM)
  refine ⟨u, hu, engineTurn_next_turns hu, ?_⟩
  rcases engineTurn_next_line hu ht.busy with ⟨hb, hline⟩ | ⟨hp, hd, hlast⟩
  · rw [ht.line] at hline
    refine .inl ⟨?_, hl, hb, hline, hmsg.trans ht.msg, hmlen.trans ht.mlen, hcfg.trans ht.cfg, fun m hM => (hdata m hM).1 hb⟩
    obtain ⟨i, -, hi⟩ := runTrace_getElem?_line hl hb
    have hlt := (List.getElem?_eq_some_iff.1 hi).1
    rwa [runTrace_length, hmlen, ht.mlen, hline] at hlt
  · rw [ht.line, ht.mlen] at hlast
    exact .inr ⟨hlast, hp, hd, hmsg.trans ht.msg, hmlen.trans ht.mlen, hcfg.trans ht.cfg,
      fun m hM => ht.cfg ▸ (hdata m hM).2 hp⟩

/-- Turns of the engine and of the host take a run on by as many lines as the engine had turns, as long as the trace has them. -/
theorem run_atLine {s t : State} {j : Nat} {ts rest : List Turn} (ht : AtLine s j t) (hts : t.turns = ts ++ rest)
    (hin : ∀ u ∈ ts, u.interleaves s.cfg.msgBytes.val = true) (hlt : j + ts.count .engine < 84 * numBlocks s.mlen.toNat) :
    ∃ u, Host.Core.run core ts.length t = .next u ∧ AtLine s (j + ts.count .engine) u ∧ u.turns = rest := by
  induction ts generalizing j t with
  | nil => exact ⟨t, rfl, ht, hts⟩
  | cons turn ts ih =>
    have ht' : AtLine s j { t with turns := ts ++ rest } := atLine_of_runOnly ht rfl
    obtain ⟨hturn, hin'⟩ := List.forall_mem_cons.1 hin
    cases turn with
    | engine =>
      obtain ⟨u, hu, huts, ⟨-, hline⟩ | ⟨hlast, -⟩⟩ := engineTurn_atLine ht'
      · rw [List.count_cons_self] at hlt ⊢
        obtain ⟨v, hv, hvline, hvts⟩ := ih hline huts hin' (by omega)
        exact ⟨v, (run_next _ ((step_engine hts).trans hu)).trans hv, by rwa [Nat.add_assoc, Nat.add_comm 1] at hvline, hvts⟩
      · rw [List.count_cons_self] at hlt
        omega
    | host acc =>
      obtain ⟨u, hu, huline, huts⟩ := hostAccess_atLine ht' hturn
      rw [List.count_cons_of_ne (by simp)] at hlt ⊢
      obtain ⟨v, hv, hvline, hvts⟩ := ih huline huts hin' hlt
      exact ⟨v, (run_next _ ((step_host hts).trans hu)).trans hv, hvline, hvts⟩
    | reset => cases hturn

/-- After START and turns in which the engine had j of them the run stands at line j. -/
theorem run_start {s : State} {ts : List Turn} (rest : List Turn) (hp : s.phase = Phase.idle)
    (hm : s.mlen.toNat ≤ s.cfg.msgBytes.val) (hin : ∀ u ∈ ts, u.interleaves s.cfg.msgBytes.val = true)
    (hlt : ts.count .engine < 84 * numBlocks s.mlen.toNat) :
    ∃ t, Host.Core.run core (ts.length + 1) { s with turns := .host (.wr 0x00 1#32) :: ts ++ rest } = .next t ∧
      AtLine s (ts.count .engine) t ∧ t.turns = rest := by
  have hstart : step { s with turns := .host (.wr 0x00 1#32) :: ts ++ rest } =
      .next (acceptStart { s with turns := ts ++ rest }) :=
    (step_host rfl).trans (hostAccess_start (s := { s with turns := ts ++ rest }) hp hm)
  have hline : AtLine s 0 (acceptStart { s with turns := ts ++ rest }) :=
    atLine_of_runOnly (atLine_acceptStart hm) rfl
  rw [run_next _ hstart]
  simpa using run_atLine hline rfl hin (by omega)

/-- After the engine's (84 · NB)-th turn the run is at its end. -/
theorem run_to_end {s : State} {ts : List Turn} (hp : s.phase = Phase.idle) (hm : s.mlen.toNat ≤ s.cfg.msgBytes.val)
    (hin : ∀ u ∈ ts, u.interleaves s.cfg.msgBytes.val = true) (hcount : ts.count .engine + 1 = 84 * numBlocks s.mlen.toNat) :
    ∃ t, Host.Core.run core (ts.length + 2) { s with turns := .host (.wr 0x00 1#32) :: ts ++ [.engine] } = .next t ∧
      RunEnded s t ∧ t.turns = [] := by
  obtain ⟨t, ht, hline, hts⟩ := run_start [.engine] hp hm hin (by omega)
  have hline' : AtLine s (ts.count .engine) { t with turns := [] } := atLine_of_runOnly hline rfl
  obtain ⟨u, hu, huts, ⟨hlt, -⟩ | ⟨-, hend⟩⟩ := engineTurn_atLine hline'
  · omega
  · exact ⟨u, run_snoc ht ((step_engine hts).trans hu), hend, huts⟩

/-- Settles O58: after j turns of the engine the run stands at line j, whose micro-operation the control word then selects. -/
theorem runFollowsItsTrace : Obligations.RunFollowsItsTrace := by
  refine fun s ts hp hm hin => ⟨runTrace_length _, fun line hget => ?_, fun hcount => ?_⟩
  · have hlt := (List.getElem?_eq_some_iff.1 hget).1
    rw [runTrace_length] at hlt
    obtain ⟨t, ht, hline, hts⟩ := run_start [.engine] hp hm hin hlt
    obtain ⟨i, hsel, hi⟩ := runTrace_getElem?_line hline.lawful hline.busy
    rw [hline.line, hline.mlen, hget] at hi
    cases hi
    exact ⟨t, ht, hsel, rfl, (step_engine hts).trans (engineTurn_of_selected hsel)⟩
  · obtain ⟨t, ht, hend, -⟩ := run_to_end hp hm hin hcount
    exact ⟨t, ht, hend.idle, hend.done⟩

/-- Settles O59: at its end the run leaves in H the chain over all the blocks. -/
theorem runEndsWithTheDigest : Obligations.RunEndsWithTheDigest := by
  intro s m ts hp hM hm hin hcount
  obtain ⟨t, ht, hend, hts⟩ := run_to_end hp (hM.1 ▸ hm) hin (hM.1 ▸ hcount)
  exact ⟨t, ht, hend.idle, hend.done, hend.result m hM, hend.mlen, hend.msg, hts⟩

end Sys2Proof.Machine

/-! PROOFS of the statements about the host's commands and accesses (spec/46_host_commands.md): each answer in every lawful state,
and that the protocol of the one operation returns the words of Digest(CFG, M). -/

namespace Sys2Proof.Machine

/-! ## The commands (46_host_commands.md R251 to R253) -/

/-- Settles O1: the value 0 decodes to NOP, which changes nothing. -/
theorem nopChangesNothing : Obligations.NopChangesNothing := fun s hl =>
  ⟨exec_nop hl, (hostAccess_command (by decide) s).trans (exec_nop hl)⟩

/-- Settles O2, by the three cases of START. -/
theorem startChecksThenStartsARun : Obligations.StartChecksThenStartsARun := by
  refine fun s => ⟨hostAccess_command (by decide) s, fun hl => ?_⟩
  rcases exec_start hl with ⟨hb, he⟩ | ⟨hi, hlong, he⟩ | ⟨hi, hfits, he⟩ <;> rw [he]
  · rw [if_pos hb, raiseFlag]
  · rw [if_neg (not_not.2 hi), if_pos hlong, raiseFlag]
  · rw [if_neg (not_not.2 hi), if_neg (Nat.not_lt.2 hfits), acceptStart]

/-- Settles O3: the value 2 decodes to CLRERR, which clears the three flags. -/
theorem clrerrClearsTheErrorFlags : Obligations.ClrerrClearsTheErrorFlags := fun s =>
  ⟨hostAccess_command (by decide) s, exec_clrerr⟩

/-! ## Writes (46_host_commands.md R255, R256, R260) -/

/-- The BUSY gate, spelled out. -/
theorem unlessBusy_eq (s k : State) : unlessBusy s k = if s.phase ≠ Phase.idle then { s with ebusy := true } else k :=
  (ite_not _ _ _).symm

/-- Settles O5: each write keeps the other half, behind the BUSY gate. -/
theorem mlenWriteStoresItsHalfOrRaisesEbusy : Obligations.MlenWriteStoresItsHalfOrRaisesEbusy := fun s v hl =>
  ⟨(hostAccess_wr (regAt_offset .mlenLo) v hl).trans (congrArg _ (unlessBusy_eq s _)),
    (hostAccess_wr (regAt_offset .mlenHi) v hl).trans (congrArg _ (unlessBusy_eq s _))⟩

/-- A message byte written to an idle engine is stored (46_host_commands.md R256). -/
theorem hostAccess_write_byte {s : State} {addr : Nat} (v : Byte) (ha : addr < s.cfg.msgBytes.val)
    (hp : s.phase = Phase.idle) : hostAccess (.wrb addr v) s = .next { s with msg := Memory.write s.msg addr v } :=
  (hostAccess_wrb ha v (lawful_idle hp)).trans (congrArg _ (unlessBusy_idle _ hp))

/-- Settles O7: idle, the byte is the one cell that the buffer's write changes; busy, the gate raises EBUSY. -/
theorem messageWriteStoresOneByteOrRaisesEbusy : Obligations.MessageWriteStoresOneByteOrRaisesEbusy := by
  refine fun s addr v hl ha => ⟨fun hp => ?_, fun hb => ?_⟩
  · exact ⟨_, hostAccess_write_byte v ha hp, read_write_same s.msg addr v, fun a => read_write_other s.msg v, rfl⟩
  · exact (hostAccess_wrb ha v hl).trans (congrArg _ (unlessBusy_busy _ hb))

/-- Settles O11: the six offsets are those of STATUS and the five DIGEST registers. -/
theorem writesToReadOnlyRegistersAreIgnored : Obligations.WritesToReadOnlyRegistersAreIgnored := by
  intro s v off hl hoff
  replace hoff : off ∈ Reg.status.offset :: (List.finRange 5).map fun k => (Reg.digest k).offset := hoff
  rcases List.mem_cons.1 hoff with rfl | hdigest
  · exact hostAccess_wr (regAt_offset .status) v hl
  · obtain ⟨k, -, rfl⟩ := List.mem_map.1 hdigest
    exact hostAccess_wr (regAt_offset (.digest k)) v hl

/-! ## Reads (46_host_commands.md R257 to R259) -/

/-- STATUS reads as its five bits (46_host_commands.md R257). -/
theorem hostAccess_read_status {s : State} (hl : s.lawful = true) :
    hostAccess (.rd 0x04) s = .next (reply (.word s.status) s) := hostAccess_rd (regAt_offset .status) hl

/-- The value of STATUS as the sum of the flags at their weights. -/
theorem status_toNat (s : State) : s.status.toNat =
    s.busy.toNat + 2 * s.done.toNat + 4 * s.elen.toNat + 8 * s.ebusy.toNat + 16 * s.ecmd.toNat := by
  have := s.busy.toNat_le
  have := s.done.toNat_le
  have := s.elen.toNat_le
  have := s.ebusy.toNat_le
  have := s.ecmd.toNat_le
  exact Nat.mod_eq_of_lt (by omega)

/-- Bit 0 of STATUS is BUSY. -/
theorem status_bit_busy (s : State) : s.status.getLsbD 0 = s.busy := by
  rw [BitVec.getLsbD, status_toNat, Nat.testBit_zero]
  cases s.busy <;> simp only [Bool.toNat_true, Bool.toNat_false, decide_eq_true_eq, decide_eq_false_iff_not] <;> omega

/-- Bit 1 of STATUS is DONE. -/
theorem status_bit_done (s : State) : s.status.getLsbD 1 = s.done := readShowsDone_status s []

theorem busy_iff (s : State) : s.busy = true ↔ s.phase ≠ Phase.idle := bne_iff_ne

/-- DONE is 0 in a run (10_state.md R35, R50). -/
theorem done_of_busy {s : State} (hl : s.lawful = true) (hp : s.phase ≠ Phase.idle) : s.done = false :=
  ((inRun_iff s).1 (inRun_of_lawful hl hp)).2.2

/-- Settles O8: the value is the sum, and a lawful busy state has DONE = 0. -/
theorem statusReadsItsFiveFlags : Obligations.StatusReadsItsFiveFlags := by
  refine fun s hl => ⟨s.status, hostAccess_read_status hl, ?_, ?_⟩
  · by_cases hp : s.phase = Phase.idle <;> simp [status_toNat, State.busy, hp]
  · rw [status_bit_busy, status_bit_done, busy_iff]
    rintro ⟨hp, hd⟩
    exact Bool.false_ne_true ((done_of_busy hl hp).symm.trans hd)

/-- The digest's word k is H[k]. -/
theorem digestWords_get (h : Five) (k : Fin 5) : (digestWords h).get k = lane h k := by
  fin_cases k <;> rfl

/-- DIGESTk reads as H[k] when DONE = 1 (46_host_commands.md R258). -/
theorem hostAccess_read_digest {s : State} (k : Fin 5) (hl : s.lawful = true) (hd : s.done = true) :
    hostAccess (.rd (Reg.digest k).offset) s = .next (reply (.word (lane s.h k)) s) :=
  (hostAccess_rd (regAt_offset (.digest k)) hl).trans (congrArg _ (if_pos hd))

/-- DIGESTk reads as a free word when DONE = 0 (46_host_commands.md R258). -/
theorem hostAccess_read_digest_free {s : State} (k : Fin 5) (hl : s.lawful = true) (hd : s.done = false) :
    hostAccess (.rd (Reg.digest k).offset) s = .next (replyFreeWord s) :=
  (hostAccess_rd (regAt_offset (.digest k)) hl).trans (congrArg _ (if_neg (by simp [hd])))

/-- Settles O9, by the two cases of DONE. -/
theorem digestReadsTheChainingRegisterWhenDone : Obligations.DigestReadsTheChainingRegisterWhenDone := by
  refine fun s k hl => ⟨fun hd => ?_, fun hd => ?_⟩
  · refine (hostAccess_read_digest k hl hd).trans ?_
    rw [← digestWords_get]
    rfl
  · exact ⟨_, _, hostAccess_read_digest_free k hl hd, rfl, engineOnly_replyFreeWord s, rfl⟩

theorem hostReadByte_written {s : State} {addr : Nat} {v : Byte} (h : Memory.read s.msg addr = some v) :
    hostReadByte addr s = reply (.byte v) s := by
  simp only [hostReadByte, h]

theorem hostReadByte_unwritten {s : State} {addr : Nat} (h : Memory.read s.msg addr = none) :
    hostReadByte addr s = replyFreeByte addr s := by
  simp only [hostReadByte, h]

/-- Settles O10: the registers by their reads, a byte by whether it was written. -/
theorem otherReadsReturnWhatIsStored : Obligations.OtherReadsReturnWhatIsStored := by
  refine fun s hl => ⟨hostAccess_rd (regAt_offset .cmd) hl, hostAccess_read_mlenLo hl, hostAccess_read_mlenHi hl,
    fun addr ha => ⟨fun v hv => ?_, fun hnone => ?_⟩⟩
  · rw [hostAccess_rdb ha hl, hostReadByte_written hv, reply]
  · exact ⟨_, _, (hostAccess_rdb ha hl).trans (congrArg _ (hostReadByte_unwritten hnone)), rfl,
      engineOnly_replyFreeByte addr s, rfl⟩

/-! ## Storing the message and its length (46_host_commands.md R261, steps 1 and 2) -/

/-- A write that the protocol makes before START: a byte of the buffer or a half of MLEN. -/
def Access.stores (cap : Nat) : Access → Prop
  | .wrb addr _ => addr < cap
  | .wr off _ => off = 0x08 ∨ off = 0x0C
  | .rd _ | .rdb _ => False

/-- What such a write leaves in an idle engine; `hostAccess_stored` ties it to the machine. -/
def stored (s : State) : Access → State
  | .wrb addr v => { s with msg := Memory.write s.msg addr v }
  | .wr off v => if off = 0x08 then { s with mlen := mlenOf s.mlenHi v } else { s with mlen := mlenOf v s.mlenLo }
  | .rd _ | .rdb _ => s

/-- An idle engine takes such a write (46_host_commands.md R255, R256). -/
theorem hostAccess_stored {s : State} {x : Access} (hx : x.stores s.cfg.msgBytes.val) (hp : s.phase = Phase.idle) :
    hostAccess x s = .next (stored s x) := by
  cases x with
  | wrb addr v => exact hostAccess_write_byte v hx hp
  | wr off v =>
    rcases hx with rfl | rfl
    · exact hostAccess_write_mlenLo v hp
    · exact hostAccess_write_mlenHi v hp
  | rd off | rdb addr => exact hx.elim

/-- A write changes MSG or MLEN only. -/
theorem stored_frame (s : State) (x : Access) :
    stored s x = { s with msg := (stored s x).msg, mlen := (stored s x).mlen } := by
  cases x with
  | wr off v => by_cases h : off = 0x08 <;> simp [stored, h]
  | wrb addr v | rd off | rdb addr => rfl

theorem stored_turns (s : State) (x : Access) (ts : List Turn) :
    stored { s with turns := ts } x = { stored s x with turns := ts } := by
  cases x with
  | wr off v => by_cases h : off = 0x08 <;> simp [stored, h, State.mlenHi, State.mlenLo]
  | wrb addr v | rd off | rdb addr => rfl

@[simp] theorem stored_phase (s : State) (x : Access) : (stored s x).phase = s.phase := by rw [stored_frame]
@[simp] theorem stored_cfg (s : State) (x : Access) : (stored s x).cfg = s.cfg := by rw [stored_frame]
@[simp] theorem stored_replies (s : State) (x : Access) : (stored s x).replies = s.replies := by rw [stored_frame]

/-- What one write keeps, a list of them keeps. -/
theorem foldl_stored_keeps {α : Type} {f : State → α} (hf : ∀ s x, f (stored s x) = f s) (xs : List Access) (s : State) :
    f (xs.foldl stored s) = f s := by
  induction xs generalizing s with
  | nil => rfl
  | cons x xs ih => rw [List.foldl_cons, ih, hf]

theorem foldl_stored_turns (xs : List Access) (s : State) (ts : List Turn) :
    xs.foldl stored { s with turns := ts } = { xs.foldl stored s with turns := ts } := by
  induction xs generalizing s with
  | nil => rfl
  | cons x xs ih => rw [List.foldl_cons, stored_turns, ih, List.foldl_cons]

/-- The writes of bytes from address k on. -/
def byteStores (k : Nat) (bytes : List Byte) : List Access := (bytes.zipIdx k).map fun p => .wrb p.2 p.1

theorem wrMsgAccesses_eq (bytes : List Byte) : wrMsgAccesses bytes = byteStores 0 bytes := rfl

theorem byteStores_cons (k : Nat) (b : Byte) (bytes : List Byte) :
    byteStores k (b :: bytes) = .wrb k b :: byteStores (k + 1) bytes := rfl

theorem byteStores_stores {k cap : Nat} {bytes : List Byte} (h : k + bytes.length ≤ cap) :
    ∀ x ∈ byteStores k bytes, x.stores cap := by
  induction bytes generalizing k with
  | nil => simp [byteStores]
  | cons b bytes ih =>
    rw [List.length_cons] at h
    rw [byteStores_cons, List.forall_mem_cons]
    exact ⟨show k < cap by omega, ih (by omega)⟩

/-- Addresses below the first one written keep their bytes. -/
theorem read_byteStores_below {k a : Nat} (h : a < k) (bytes : List Byte) (s : State) :
    Memory.read ((byteStores k bytes).foldl stored s).msg a = Memory.read s.msg a := by
  induction bytes generalizing k s with
  | nil => rfl
  | cons b bytes ih =>
    rw [byteStores_cons, List.foldl_cons, ih (by omega)]
    exact read_write_other s.msg b (by omega)

/-- Each address written holds its byte: the later writes are to other addresses. -/
theorem read_byteStores {k q : Nat} {bytes : List Byte} {v : Byte} (h : bytes[q]? = some v) (s : State) :
    Memory.read ((byteStores k bytes).foldl stored s).msg (k + q) = some v := by
  induction bytes generalizing k q s with
  | nil => simp at h
  | cons b bytes ih =>
    rw [byteStores_cons, List.foldl_cons]
    cases q with
    | zero =>
      obtain rfl : b = v := by simpa using h
      exact (read_byteStores_below (Nat.lt_add_one k) bytes _).trans (read_write_same s.msg k b)
    | succ q => simpa only [Nat.add_assoc, Nat.add_comm 1] using ih (k := k + 1) (q := q) (by simpa using h) _

/-- The two halves that WRLEN writes make up the length (assumption log 22 for a length of 2^64 or more). -/
theorem foldl_stored_wrLen (n : Nat) (s : State) :
    (wrLenAccesses n).foldl stored s = { s with mlen := BitVec.ofNat 64 n } := by
  have hn : mlenOf (BitVec.ofNat 32 (n / 2 ^ 32)) (BitVec.ofNat 32 (n % 2 ^ 32)) = BitVec.ofNat 64 n := by
    apply BitVec.eq_of_toNat_eq
    simp only [mlenOf_toNat, BitVec.toNat_ofNat]
    omega
  rw [← hn]
  simp [wrLenAccesses, stored, Reg.offset]

/-- What HASH writes before START. -/
def loads (m : Message) : List Access := wrMsgAccesses m.val ++ wrLenAccesses m.val.length

theorem loads_length (m : Message) : (loads m).length = m.val.length + 2 := by
  simp [loads, wrMsgAccesses, wrLenAccesses]

theorem loads_stores {m : Message} {cap : Nat} (h : m.len.val ≤ cap) : ∀ x ∈ loads m, x.stores cap := by
  rw [loads, wrMsgAccesses_eq]
  intro x hx
  rcases List.mem_append.1 hx with hbyte | hlen
  · exact byteStores_stores (by simpa using h) x hbyte
  · simp only [wrLenAccesses, List.mem_cons, List.not_mem_nil, or_false] at hlen
    rcases hlen with rfl | rfl
    · exact .inl rfl
    · exact .inr rfl

/-- The state in which START finds the engine. -/
def State.loaded (s : State) (m : Message) : State := (loads m).foldl stored s

@[simp] theorem loaded_phase (s : State) (m : Message) : (s.loaded m).phase = s.phase :=
  foldl_stored_keeps stored_phase _ s
@[simp] theorem loaded_cfg (s : State) (m : Message) : (s.loaded m).cfg = s.cfg :=
  foldl_stored_keeps stored_cfg _ s
@[simp] theorem loaded_replies (s : State) (m : Message) : (s.loaded m).replies = s.replies :=
  foldl_stored_keeps stored_replies _ s

/-- It holds the message. -/
theorem loaded_messageIs (s : State) (m : Message) : (s.loaded m).MessageIs m := by
  rw [State.loaded, loads, List.foldl_append, foldl_stored_wrLen]
  refine ⟨?_, fun q v hq => ?_⟩
  · rw [BitVec.toNat_ofNat]
    exact Nat.mod_eq_of_lt (m.len.isLt.trans (by decide))
  · have hread := read_byteStores (k := 0) hq s
    rwa [Nat.zero_add, ← wrMsgAccesses_eq] at hread

/-! ## The protocol as turns (46_host_commands.md R261) -/

/-- The writes at the head of the list of turns. -/
theorem run_stores {xs : List Access} {s : State} (rest : List Turn) (hp : s.phase = Phase.idle)
    (hxs : ∀ x ∈ xs, x.stores s.cfg.msgBytes.val) :
    Host.Core.run core xs.length { s with turns := xs.map .host ++ rest } =
      .next { xs.foldl stored s with turns := rest } := by
  induction xs generalizing s with
  | nil => rfl
  | cons x xs ih =>
    obtain ⟨hx, hxs'⟩ := List.forall_mem_cons.1 hxs
    have hstep : step { s with turns := (x :: xs).map .host ++ rest } =
        .next { stored s x with turns := xs.map .host ++ rest } :=
      (step_host rfl).trans ((hostAccess_stored (s := { s with turns := xs.map .host ++ rest }) hx hp).trans
        (congrArg _ (stored_turns s x _)))
    rw [List.length_cons, run_next _ hstep]
    exact ih (by simpa using hp) (by simpa using hxs')

/-- The engine returns nothing to the host (assumption log 9). -/
theorem engineTurn_next_replies {s t : State} (h : engineTurn s = .next t) : t.replies = s.replies := by
  rcases engineTurn_next h with
    ⟨-, rfl⟩ | ⟨-, -, n, -, rfl⟩ | ⟨-, -, rfl⟩ | ⟨-, -, rfl⟩ | ⟨-, -, -, rfl⟩ | ⟨-, -, rfl⟩ <;>
    simp [roundStep_eq, advanceBlock_eq]

/-- The engine's remaining turns, with no access between them, end the run and return nothing to the host. -/
theorem run_engineTurns {s t : State} {j k : Nat} {rest : List Turn} (ht : AtLine s j t)
    (hts : t.turns = List.replicate (k + 1) .engine ++ rest) (hk : j + k + 1 = 84 * numBlocks s.mlen.toNat) :
    ∃ u : State, Host.Core.run core (k + 1) t = .next u ∧ RunEnded s u ∧ u.turns = rest ∧ u.replies = t.replies := by
  induction k generalizing j t with
  | zero =>
    obtain ⟨u, hu, huts, ⟨hlt, -⟩ | ⟨-, hend⟩⟩ :=
      engineTurn_atLine (atLine_of_runOnly (u := { t with turns := rest }) ht rfl)
    · omega
    · exact ⟨u, run_next 0 ((step_engine hts).trans hu), hend, huts, (engineTurn_next_replies hu :)⟩
  | succ k ih =>
    obtain ⟨u, hu, huts, ⟨-, hline⟩ | ⟨hlast, -⟩⟩ :=
      engineTurn_atLine (atLine_of_runOnly (u := { t with turns := List.replicate (k + 1) .engine ++ rest }) ht rfl)
    · obtain ⟨v, hv, hend, hvts, hvr⟩ := ih hline huts (by omega)
      exact ⟨v, (run_next _ ((step_engine hts).trans hu)).trans hv, hend, hvts, hvr.trans (engineTurn_next_replies hu :)⟩
    · omega

/-- START, then the engine's 84 · NB turns with no access between them. -/
theorem run_startAndEngineTurns {s : State} (rest : List Turn) (hp : s.phase = Phase.idle)
    (hm : s.mlen.toNat ≤ s.cfg.msgBytes.val) :
    ∃ u : State, Host.Core.run core (84 * numBlocks s.mlen.toNat + 1) { s with
        turns := .host (.wr 0x00 1#32) :: (List.replicate (84 * numBlocks s.mlen.toNat) .engine ++ rest) } = .next u ∧
      RunEnded s u ∧ u.turns = rest ∧ u.replies = s.replies := by
  obtain ⟨k, hk⟩ : ∃ k, 84 * numBlocks s.mlen.toNat = k + 1 :=
    Nat.exists_eq_succ_of_ne_zero (by have := numBlocks_pos s.mlen.toNat; omega)
  rw [hk]
  have hstart := (step_host (s := { s with turns := .host (.wr 0x00 1#32) :: (List.replicate (k + 1) .engine ++ rest) })
    rfl).trans (hostAccess_start hp hm)
  rw [run_next _ hstart]
  exact run_engineTurns (atLine_of_runOnly (atLine_acceptStart hm) rfl) rfl (by omega)

/-- Reads of DIGEST registers after a run return the words of H. -/
theorem run_digestReads {t : State} (ks : List (Fin 5)) (hp : t.phase = Phase.idle) (hd : t.done = true) :
    Host.Core.run core ks.length { t with turns := ks.map fun k => .host (.rd (Reg.digest k).offset) } =
      .next { t with turns := [], replies := (ks.map fun k => .word (lane t.h k)).reverse ++ t.replies } := by
  induction ks generalizing t with
  | nil => rfl
  | cons k ks ih =>
    have hstep : step { t with turns := (k :: ks).map fun k => .host (.rd (Reg.digest k).offset) } = .next
        { reply (.word (lane t.h k)) t with turns := ks.map fun k => .host (.rd (Reg.digest k).offset) } :=
      (step_host rfl).trans (hostAccess_read_digest k (lawful_idle hp) hd)
    rw [List.length_cons, run_next _ hstep, ih (t := reply (.word (lane t.h k)) t) hp hd]
    simp [reply]

/-- The reads at the end of the protocol: STATUS, then the five words. -/
theorem run_finalReads {u : State} (hp : u.phase = Phase.idle) (hd : u.done = true)
    (hts : u.turns = (Access.rd 0x04 :: rdDigAccesses).map .host) :
    ∃ t : State, Host.Core.run core 6 u = .next t ∧ t.turns = [] ∧
      t.replies = (digestWords u.h).reverse.map .word ++ .word u.status :: u.replies := by
  have hstatus : step u = .next (reply (.word u.status) { u with turns := rdDigAccesses.map .host }) :=
    (step_host hts).trans (hostAccess_read_status (lawful_idle hp))
  exact ⟨_, (run_next 5 hstatus).trans (run_digestReads (t := reply (.word u.status) u) (List.finRange 5) hp hd), rfl, rfl⟩

/-- START finds a message that fits. -/
theorem fits_loaded {s : State} {m : Message} (hm : m.len.val ≤ s.cfg.msgBytes.val) :
    (s.loaded m).mlen.toNat ≤ (s.loaded m).cfg.msgBytes.val := by
  rw [(loaded_messageIs s m).1, loaded_cfg]
  exact hm

/-- The protocol as turns ends with STATUS showing DONE and the words of the digest. -/
theorem run_protocol {s : State} {m : Message} (hp : s.phase = Phase.idle) (hm : m.len.val ≤ s.cfg.msgBytes.val) :
    ∃ (t : State) (v : Word),
      Host.Core.run core (m.val.length + 9 + 84 * numBlocks m.val.length)
        { s with turns := (loads m ++ [Access.wr 0x00 1#32]).map .host ++
                          List.replicate (84 * numBlocks m.val.length) .engine ++
                          (Access.rd 0x04 :: rdDigAccesses).map .host } = .next t ∧
      t.replies = (digestWords (digest s.cfg m)).reverse.map .word ++ .word v :: s.replies ∧
      v.getLsbD 0 = false ∧ v.getLsbD 1 = true ∧ t.turns = [] := by
  have hM := loaded_messageIs s m
  have hn : (s.loaded m).mlen.toNat = m.val.length := hM.1
  obtain ⟨u, hu, hend, huts, hur⟩ := run_startAndEngineTurns (s := s.loaded m)
    ((Access.rd 0x04 :: rdDigAccesses).map .host) ((loaded_phase s m).trans hp) (fits_loaded hm)
  rw [hn] at hu
  have hh : u.h = digest s.cfg m := by rw [hend.result m hM, loaded_cfg]
  obtain ⟨t, ht, htts, htr⟩ := run_finalReads hend.idle hend.done huts
  refine ⟨t, u.status, ?_, by rw [htr, hh, hur, loaded_replies], ?_, by rw [status_bit_done, hend.done], htts⟩
  · have hcount : m.val.length + 9 + 84 * numBlocks m.val.length =
        (loads m).length + (84 * numBlocks m.val.length + 1 + 6) := by rw [loads_length]; omega
    rw [hcount, List.map_append, List.append_assoc, List.append_assoc,
      run_append _ (run_stores _ hp (loads_stores hm))]
    exact (run_append 6 hu).trans ht
  · rw [status_bit_busy, ← Bool.not_eq_true, busy_iff, not_not]
    exact hend.idle

/-! ## The protocol as the host program HASH (30_encoding.md R105) -/

/-- What is left of HASH after START: POLL, then RDDIG. -/
def pollAndRead : List HostOp := .pollUntilDone :: rdDigAccesses.map .access

/-- What is left of HASH while the writes `xs` are still to be made. -/
def loadAndRun (xs : List Access) : List HostOp := (xs ++ [Access.wr 0x00 1#32]).map .access ++ pollAndRead

theorem expand_hash (m : Message) : (Pseudo.hash m.val).expand = loadAndRun (loads m) := rfl

/-- The writes `xs` bring the idle `t` to what START is to find, the state `s`. -/
structure Loading (s : State) (xs : List Access) (t : State) : Prop where
  idle : t.phase = Phase.idle
  stores : ∀ x ∈ xs, x.stores t.cfg.msgBytes.val
  rest : (xs.foldl stored t).runOnly = s.runOnly

/-- HASH begins with all its writes to be made. -/
theorem loading_loads {s : State} {m : Message} (hp : s.phase = Phase.idle) (hm : m.len.val ≤ s.cfg.msgBytes.val) :
    Loading (s.loaded m) (loads m) s := ⟨hp, loads_stores hm, rfl⟩

theorem loading_turns {s t : State} {xs : List Access} (h : Loading s xs t) (ts : List Turn) :
    Loading s xs { t with turns := ts } :=
  ⟨h.idle, h.stores, by rw [foldl_stored_turns]; exact h.rest⟩

/-- The next write completes and leaves one less. -/
theorem loading_host {s t : State} {x : Access} {xs : List Access} (h : Loading s (x :: xs) t) :
    ∃ u, hostAccess x { t with turns := [] } = .next u ∧ Loading s xs u := by
  obtain ⟨hidle, hstores, hrest⟩ := loading_turns h []
  obtain ⟨hx, hxs⟩ := List.forall_mem_cons.1 hstores
  exact ⟨_, hostAccess_stored hx hidle, by rwa [stored_phase], by rwa [stored_cfg], hrest⟩

/-- With nothing left to write, START is accepted, for it finds what fits. -/
theorem loading_start {s t : State} (h : Loading s [] t) (hm : s.mlen.toNat ≤ s.cfg.msgBytes.val) :
    ∃ u, hostAccess (.wr 0x00 1#32) { t with turns := [] } = .next u ∧ AtLine s 0 u := by
  have hrest : t.runOnly = s.runOnly := h.rest
  have hmlen : t.mlen = s.mlen := (congrArg State.mlen hrest :)
  have hcfg : t.cfg = s.cfg := (congrArg State.cfg hrest :)
  exact ⟨_, hostAccess_start h.idle (by rw [hmlen, hcfg]; exact hm),
    atLine_of_runOnly (atLine_acceptStart hm) (congrArg (fun r => (acceptStart r).runOnly) hrest :)⟩

/-- A read of STATUS in a run does not show DONE, so POLL stays, and the run stands where it stood. -/
theorem polling_host {s t : State} {j : Nat} (h : AtLine s j t) :
    ∃ u, hostAccess HostOp.pollUntilDone.toAccess { t with turns := [] } = .next u ∧ AtLine s j u ∧
      afterAccess .pollUntilDone (rdDigAccesses.map .access) u = pollAndRead := by
  have ht : AtLine s j { t with turns := [] } := atLine_of_runOnly h rfl
  refine ⟨_, hostAccess_read_status ht.lawful, atLine_of_runOnly ht rfl, if_neg ?_⟩
  rw [reply, readShowsDone_status, done_of_busy ht.lawful ht.busy]
  exact Bool.false_ne_true

/-- The run is over and the host has done k lines of POLL and RDDIG: the reads of DIGEST among them returned the words of the
digest. -/
structure Reading (s : State) (m : Message) (k : Nat) (t : State) : Prop where
  ended : RunEnded s t
  le : k ≤ 6
  words : t.replies.take (k - 1) = ((digestWords (digest s.cfg m)).take (k - 1)).reverse.map .word

theorem reading_zero {s t : State} (m : Message) (h : RunEnded s t) : Reading s m 0 t := ⟨h, Nat.zero_le 6, rfl⟩

/-- Where a run has ended shows in what it depends on. -/
theorem runEnded_of_runOnly {s t u : State} (ht : RunEnded s t) (h : u.runOnly = t.runOnly) : RunEnded s u where
  idle := (congrArg State.phase h).trans ht.idle
  done := (congrArg State.done h).trans ht.done
  msg := (congrArg State.msg h).trans ht.msg
  mlen := (congrArg State.mlen h).trans ht.mlen
  cfg := (congrArg State.cfg h).trans ht.cfg
  result m hM := (congrArg State.h h).trans (ht.result m hM)

theorem reading_turns {s t : State} {m : Message} {k : Nat} (h : Reading s m k t) (ts : List Turn) :
    Reading s m k { t with turns := ts } := ⟨runEnded_of_runOnly h.ended rfl, h.le, h.words⟩

theorem rdDigAccesses_drop (k : Fin 5) :
    rdDigAccesses.drop k.val = .rd (Reg.digest k).offset :: rdDigAccesses.drop (k.val + 1) := by
  fin_cases k <;> rfl

theorem digestWords_take_succ (h : Five) (k : Fin 5) :
    (digestWords h).take (k.val + 1) = (digestWords h).take k.val ++ [lane h k] := by
  fin_cases k <;> rfl

/-- Each of the host's moves after the run completes and does one line more. -/
theorem reading_host {s t : State} {m : Message} {k : Nat} (hM : s.MessageIs m) (h : Reading s m k t) (hk : k < 6) :
    ∃ op u, pollAndRead.drop k = op :: pollAndRead.drop (k + 1) ∧
      hostAccess op.toAccess { t with turns := [] } = .next u ∧
      afterAccess op (pollAndRead.drop (k + 1)) u = pollAndRead.drop (k + 1) ∧ Reading s m (k + 1) u := by
  obtain ⟨hend, -, hwords⟩ := reading_turns h []
  have hl := lawful_idle hend.idle
  cases k with
  | zero =>
    refine ⟨.pollUntilDone, _, rfl, hostAccess_read_status hl, if_pos ?_, runEnded_of_runOnly hend rfl, hk, rfl⟩
    rw [reply, readShowsDone_status]
    exact hend.done
  | succ i =>
    obtain ⟨d, rfl⟩ : ∃ d : Fin 5, d.val = i := ⟨⟨i, by omega⟩, rfl⟩
    have hdrop : pollAndRead.drop (d.val + 1) =
        .access (.rd (Reg.digest d).offset) :: pollAndRead.drop (d.val + 1 + 1) := by
      simpa [pollAndRead] using congrArg (List.map HostOp.access) (rdDigAccesses_drop d)
    refine ⟨_, _, hdrop, hostAccess_read_digest d hl hend.done, rfl, runEnded_of_runOnly hend rfl, hk, ?_⟩
    rw [Nat.add_sub_cancel] at hwords ⊢
    rw [digestWords_take_succ, reply, List.take_succ_cons, hwords, hend.result m hM]
    simp

/-- Where the program HASH can stand. -/
inductive HashStage (s : State) (m : Message) : State → List HostOp → Prop
  | loading {t : State} {xs : List Access} : Loading s xs t → HashStage s m t (loadAndRun xs)
  | polling {t : State} {j : Nat} : AtLine s j t → HashStage s m t pollAndRead
  | reading {t : State} {k : Nat} : Reading s m k t → HashStage s m t (pollAndRead.drop k)

/-- The engine's turn during POLL takes the run on by a line or ends it. -/
theorem polling_engine {s t : State} (m : Message) {j : Nat} (h : AtLine s j t) :
    ∃ u, engineTurn { t with turns := [] } = .next u ∧
      (AtLine s (j + 1) u ∨ j + 1 = 84 * numBlocks s.mlen.toNat ∧ Reading s m 0 u) := by
  obtain ⟨u, hu, -, ⟨-, hline⟩ | ⟨hlast, hend⟩⟩ :=
    engineTurn_atLine (atLine_of_runOnly (u := { t with turns := [] }) h rfl)
  · exact ⟨u, hu, .inl hline⟩
  · exact ⟨u, hu, .inr ⟨hlast, reading_zero m hend⟩⟩

/-- The engine's turn completes at every stage; where no run is in progress it changes nothing. -/
theorem hashStage_engine {s t : State} {m : Message} {prog : List HostOp} (h : HashStage s m t prog) :
    ∃ u, engineTurn { t with turns := [] } = .next u ∧ HashStage s m u prog := by
  cases h with
  | loading h => exact ⟨_, engineTurn_idle h.idle, .loading (loading_turns h [])⟩
  | polling h =>
    obtain ⟨u, hu, hline | ⟨-, hend⟩⟩ := polling_engine m h
    · exact ⟨u, hu, .polling hline⟩
    · exact ⟨u, hu, .reading hend⟩
  | reading h => exact ⟨_, engineTurn_idle h.ended.idle, .reading (reading_turns h [])⟩

/-- At every stage the program is finished or the host's move completes. -/
theorem hashStage_host {s t : State} {m : Message} {prog : List HostOp} (hM : s.MessageIs m)
    (hm : s.mlen.toNat ≤ s.cfg.msgBytes.val) (h : HashStage s m t prog) :
    prog = [] ∨ ∃ op rest u, prog = op :: rest ∧ hostAccess op.toAccess { t with turns := [] } = .next u ∧
      HashStage s m u (afterAccess op rest u) := by
  cases h with
  | @loading xs h =>
    cases xs with
    | nil =>
      obtain ⟨u, hu, hline⟩ := loading_start h hm
      exact .inr ⟨.access _, pollAndRead, u, rfl, hu, .polling hline⟩
    | cons x xs =>
      obtain ⟨u, hu, hload⟩ := loading_host h
      exact .inr ⟨.access x, loadAndRun xs, u, rfl, hu, .loading hload⟩
  | polling h =>
    obtain ⟨u, hu, hline, hstay⟩ := polling_host h
    exact .inr ⟨_, _, u, rfl, hu, hstay ▸ .polling hline⟩
  | @reading k h =>
    rcases Nat.lt_or_eq_of_le h.le with hk | rfl
    · obtain ⟨op, u, hdrop, hu, hafter, hread⟩ := reading_host hM h hk
      exact .inr ⟨op, _, u, hdrop, hu, by rw [hafter]; exact .reading hread⟩
    · exact .inl rfl

/-- Under every order of the movers no move stops, and the program stands at one of its stages. -/
theorem runProgram_hashStage {s t : State} {m : Message} {prog : List HostOp} (hM : s.MessageIs m)
    (hm : s.mlen.toNat ≤ s.cfg.msgBytes.val) (ms : List Mover) (h : HashStage s m t prog) :
    ∃ u rest, runProgram ms prog t = .next (u, rest) ∧ HashStage s m u rest := by
  induction ms generalizing t prog with
  | nil => exact ⟨t, prog, rfl, h⟩
  | cons mover ms ih =>
    cases mover with
    | engine =>
      obtain ⟨u, hu, hstage⟩ := hashStage_engine h
      rw [runProgram_engine ms prog hu]
      exact ih hstage
    | host =>
      rcases hashStage_host hM hm h with rfl | ⟨op, rest, u, rfl, hu, hstage⟩
      · exact ih h
      · rw [runProgram_host ms rest hu]
        exact ih hstage

/-- Where the program is finished the host has the words of the digest. -/
theorem words_of_finished {s t : State} {m : Message} {prog : List HostOp} (h : HashStage s m t prog) (hprog : prog = []) :
    t.replies.take 5 = (digestWords (digest s.cfg m)).reverse.map .word := by
  cases h with
  | loading h => simp [loadAndRun] at hprog
  | polling h => simp [pollAndRead] at hprog
  | @reading k h =>
    have hk : 6 ≤ k := List.drop_eq_nil_iff.1 hprog
    obtain rfl : k = 6 := Nat.le_antisymm h.le hk
    exact h.words

/-! ### The host's writes and START, then the engine's turns among any polls, then six more moves of the host -/

/-- The writes, then START, one move of the host each. -/
theorem runProgram_loading {s t : State} {xs : List Access} (hm : s.mlen.toNat ≤ s.cfg.msgBytes.val) (h : Loading s xs t) :
    ∃ u, runProgram (List.replicate (xs.length + 1) .host) (loadAndRun xs) t = .next (u, pollAndRead) ∧ AtLine s 0 u := by
  induction xs generalizing t with
  | nil =>
    obtain ⟨u, hu, hline⟩ := loading_start h hm
    exact ⟨u, runProgram_host (op := .access _) [] pollAndRead hu, hline⟩
  | cons x xs ih =>
    obtain ⟨u, hu, hload⟩ := loading_host h
    obtain ⟨v, hv, hline⟩ := ih hload
    exact ⟨v, (runProgram_host (op := .access x) _ (loadAndRun xs) hu).trans hv, hline⟩

/-- After the run each move of the host does one line, until none is left. -/
theorem runProgram_reading {s t : State} {m : Message} {k : Nat} (hM : s.MessageIs m) (ms : List Mover)
    (h : Reading s m k t) : ∃ u, runProgram ms (pollAndRead.drop k) t =
      .next (u, pollAndRead.drop (min 6 (k + ms.count .host))) ∧ Reading s m (min 6 (k + ms.count .host)) u := by
  induction ms generalizing t k with
  | nil =>
    rw [List.count_nil, Nat.add_zero, Nat.min_eq_right h.le]
    exact ⟨t, rfl, h⟩
  | cons mover ms ih =>
    cases mover with
    | engine =>
      rw [List.count_cons_of_ne (by simp), runProgram_engine _ _ (engineTurn_idle h.ended.idle)]
      exact ih (reading_turns h [])
    | host =>
      rw [List.count_cons_self]
      rcases Nat.lt_or_eq_of_le h.le with hk | rfl
      · obtain ⟨op, u, hdrop, hu, hafter, hread⟩ := reading_host hM h hk
        rw [hdrop, runProgram_host _ _ hu, hafter, ← Nat.add_assoc, Nat.add_right_comm]
        exact ih hread
      · have hmin : min 6 (6 + (ms.count .host + 1)) = min 6 (6 + ms.count .host) := by omega
        rw [hmin]
        exact ih h

/-- Once the engine had the turns that the run still takes, POLL finds DONE at the host's next move, or has found it. -/
theorem runProgram_polling {s t : State} {m : Message} {j : Nat} {ms : List Mover} (hM : s.MessageIs m) (h : AtLine s j t)
    (hcount : 84 * numBlocks s.mlen.toNat ≤ j + ms.count .engine) :
    ∃ u k, runProgram ms pollAndRead t = .next (u, pollAndRead.drop k) ∧ Reading s m k u := by
  induction ms generalizing t j with
  | nil =>
    obtain ⟨-, -, -, ⟨hlt, -⟩ | ⟨hlast, -⟩⟩ := engineTurn_atLine h <;> rw [List.count_nil] at hcount <;> omega
  | cons mover ms ih =>
    cases mover with
    | engine =>
      rw [List.count_cons_self] at hcount
      obtain ⟨u, hu, hline | ⟨-, hread⟩⟩ := polling_engine m h
      · rw [runProgram_engine _ _ hu]
        exact ih hline (by omega)
      · obtain ⟨v, hv, hv'⟩ := runProgram_reading hM ms hread
        exact ⟨v, _, (runProgram_engine _ _ hu).trans hv, hv'⟩
    | host =>
      rw [List.count_cons_of_ne (by simp)] at hcount
      obtain ⟨u, hu, hline, hstay⟩ := polling_host h
      rw [pollAndRead, runProgram_host _ _ hu, hstay]
      exact ih hline hcount

/-- Enough turns finish the program. -/
theorem runProgram_finishes {s : State} {m : Message} {ms : List Mover} (hp : s.phase = Phase.idle)
    (hm : m.len.val ≤ s.cfg.msgBytes.val) (hcount : 84 * numBlocks m.val.length ≤ ms.count .engine) :
    ∃ t, runProgram (List.replicate (m.val.length + 3) .host ++ ms ++ List.replicate 6 .host) (loadAndRun (loads m)) s =
      .next (t, []) := by
  have hM := loaded_messageIs s m
  have hn : (s.loaded m).mlen.toNat = m.val.length := hM.1
  obtain ⟨t, ht, hline⟩ := runProgram_loading (fits_loaded hm) (loading_loads hp hm)
  obtain ⟨u, k, hu, hread⟩ := runProgram_polling (ms := ms) hM hline (by rw [hn]; omega)
  obtain ⟨v, hv, -⟩ := runProgram_reading hM (List.replicate 6 .host) hread
  have hdone : min 6 (k + (List.replicate 6 Mover.host).count .host) = 6 := by
    rw [List.count_replicate_self]; omega
  rw [hdone] at hv
  rw [loads_length] at ht
  rw [List.append_assoc, runProgram_append _ ht, runProgram_append _ hu]
  exact ⟨v, hv⟩

/-- Settles O60: as turns the protocol is one run; as a program HASH stands at one of its stages after every move, and enough
moves bring it to the last. -/
theorem hostProtocolReturnsTheDigest : Obligations.HostProtocolReturnsTheDigest := by
  refine fun s m hp hm => ⟨run_protocol hp hm, fun ms => ?_, fun ms => runProgram_finishes hp hm⟩
  obtain ⟨t, rest, ht, hstage⟩ := runProgram_hashStage (loaded_messageIs s m) (fits_loaded hm) ms
    (.loading (loading_loads hp hm))
  exact ⟨t, rest, ht, fun hrest => loaded_cfg s m ▸ words_of_finished hstage hrest⟩

end Sys2Proof.Machine

/-! PROOFS of the statements about the error flags (spec/60_exceptions.md): which flag each check raises and in which order, and
that in a lawful state nothing stops the machine. -/

namespace Sys2Proof.Machine

/-! ## The machine never stops (60_exceptions.md R280) -/

/-- In a lawful state every turn answers next, but for a host access outside the map (20_memory.md R66). -/
theorem step_completes {s : State} (hl : s.lawful = true) (hm : s.nextTurnInMap = true) : ∃ t, step s = .next t := by
  rcases step_cases s with ⟨-, he⟩ | ⟨ts, -, he⟩ | ⟨acc, ts, hts, he⟩ | ⟨ts, -, he⟩ <;> rw [he]
  · exact engineTurn_completes hl
  · exact engineTurn_completes ((lawful_turns s ts).trans hl)
  · rw [State.nextTurnInMap, hts] at hm
    exact hostAccess_completes ((lawful_turns s ts).trans hl) hm
  · exact ⟨_, rfl⟩

/-- Settles O51: the engine's turn completes and keeps the flags, and the other turns complete with it. -/
theorem lawfulStatesAlwaysStep : Obligations.LawfulStatesAlwaysStep := by
  refine ⟨fun s hl => ?_, fun s => step_completes⟩
  obtain ⟨t, ht⟩ := engineTurn_completes hl
  obtain ⟨-, -, -, hflags⟩ := engineTurn_next_frame ht
  exact ⟨t, ht, hflags⟩

/-! ## A write to CMD (60_exceptions.md R283) -/

/-- A reserved value sets ECMD in every lawful state, whatever else it would meet (46_host_commands.md R254). -/
theorem hostAccess_reserved_command {v : Word} {r : Reserved} {s : State} (hd : decodeCommand v = .reserved r)
    (hl : s.lawful = true) : hostAccess (.wr 0x00 v) s = .next (raiseFlag .ecmd s) := by
  refine (hostAccess_wr (regAt_offset .cmd) v hl).trans ?_
  rw [hostWriteReg, hostCommand, hd]

/-- The outcome of a write of `v` to CMD: the checks in their order, then the command (60_exceptions.md R283). -/
def commandOutcome (v : Word) (s : State) : State :=
  if v = 3#32 ∨ cmdReserved v ≠ 0#30 then raiseFlag .ecmd s
  else if v = 1#32 ∧ s.phase ≠ Phase.idle then raiseFlag .ebusy s
  else if v = 1#32 ∧ s.cfg.msgBytes.val < s.mlen.toNat then raiseFlag .elen s
  else if v = 1#32 then acceptStart s
  else if v = 2#32 then clearErrors s
  else s

/-- A write to CMD has that outcome, by what its value decodes to. -/
theorem hostAccess_write_cmd (v : Word) {s : State} (hl : s.lawful = true) :
    hostAccess (.wr 0x00 v) s = .next (commandOutcome v s) := by
  rcases decodeCommand_cases v with ⟨rfl, hd⟩ | ⟨rfl, hd⟩ | ⟨rfl, hd⟩ | ⟨hres, -, -, -, hd⟩
  · rw [hostAccess_command hd, exec_nop hl]
    rfl
  · rw [hostAccess_command hd]
    rcases exec_start hl with ⟨hb, he⟩ | ⟨hi, hlong, he⟩ | ⟨hi, hfits, he⟩ <;> rw [he]
    · simp [commandOutcome, cmdReserved, hb]
    · simp [commandOutcome, cmdReserved, hi, hlong]
    · simp [commandOutcome, cmdReserved, hi, Nat.not_lt.2 hfits]
  · rw [hostAccess_command hd, exec_clrerr hl]
    rfl
  · rw [hostAccess_reserved_command hd hl, commandOutcome, if_pos hres]

/-! ## How many flags an access raises (60_exceptions.md R283) -/

/-- How many error flags are set in `t` that are clear in `s`. -/
def flagsRaised (s t : State) : Nat :=
  (!s.elen && t.elen).toNat + (!s.ebusy && t.ebusy).toNat + (!s.ecmd && t.ecmd).toNat

/-- A state that sets no flag beyond those of `s` has raised none. -/
theorem flagsRaised_of_same {s t : State} (hl : t.elen = s.elen) (hb : t.ebusy = s.ebusy) (hc : t.ecmd = s.ecmd) :
    flagsRaised s t = 0 := by
  simp [flagsRaised, hl, hb, hc]

theorem flagsRaised_clearErrors (s : State) : flagsRaised s (clearErrors s) = 0 := by
  simp [flagsRaised]

theorem flagsRaised_raiseFlag (f : ErrFlag) (s : State) : flagsRaised s (raiseFlag f s) ≤ 1 := by
  cases f <;> simp [flagsRaised, Bool.toNat_le]

/-- An access that completes raises at most one flag, by everything an access can do. -/
theorem hostAccess_flagsRaised_le {acc : Access} {s t : State} (h : hostAccess acc s = .next t) : flagsRaised s t ≤ 1 := by
  obtain ⟨-, rfl | ⟨f, rfl⟩ | rfl | ⟨-, -, -, rfl⟩ | ⟨-, n, rfl⟩ | ⟨-, a, v, -, rfl⟩ | ⟨r, rfl⟩ | rfl | ⟨a, rfl⟩⟩ :=
    hostAccess_next h
  case inr.inl => exact flagsRaised_raiseFlag f s
  case inr.inr.inl => exact (flagsRaised_clearErrors s).le.trans (Nat.zero_le 1)
  all_goals exact (flagsRaised_of_same rfl rfl rfl).le.trans (Nat.zero_le 1)

/-! ## The BUSY check of MLEN and MSG (46_host_commands.md R255, R256) -/

/-- The BUSY gate over a write `k` that leaves the flags alone: EBUSY is raised exactly when the engine is busy, and no other flag. -/
theorem unlessBusy_flags {s k : State} (hl : k.elen = s.elen) (hb : k.ebusy = s.ebusy) (hc : k.ecmd = s.ecmd) :
    (unlessBusy s k).elen = s.elen ∧ (unlessBusy s k).ecmd = s.ecmd ∧
      ((unlessBusy s k).ebusy = true ↔ s.ebusy = true ∨ s.phase ≠ Phase.idle) := by
  by_cases hp : s.phase = Phase.idle
  · simp [unlessBusy_idle k hp, hl, hb, hc, hp]
  · simp [unlessBusy_busy k hp, hp]

/-- A write to a half of MLEN goes through the BUSY gate. -/
theorem hostAccess_write_mlen_next {off : Nat} {v : Word} {s t : State} (hoff : off = 0x08 ∨ off = 0x0C)
    (h : hostAccess (.wr off v) s = .next t) : ∃ n, t = unlessBusy s { s with mlen := n } := by
  obtain ⟨hl, -⟩ := hostAccess_next h
  rcases hoff with rfl | rfl
  · cases (hostAccess_wr (regAt_offset .mlenLo) v hl).symm.trans h
    exact ⟨_, rfl⟩
  · cases (hostAccess_wr (regAt_offset .mlenHi) v hl).symm.trans h
    exact ⟨_, rfl⟩

/-- A write to the message buffer goes through the BUSY gate. -/
theorem hostAccess_write_byte_next {addr : Nat} {v : Byte} {s t : State} (h : hostAccess (.wrb addr v) s = .next t) :
    t = unlessBusy s { s with msg := Memory.write s.msg addr v } := by
  obtain ⟨hl, hm⟩ := hostAccess_next_inMap h
  cases (hostAccess_wrb (of_decide_eq_true hm) v hl).symm.trans h
  rfl

/-- Settles O4: a write to CMD by its value, the count of flags by what an access can do, MLEN and MSG by the BUSY gate, and the
engine by its frame. -/
theorem checksGoInOrderAndRaiseAtMostOneFlag : Obligations.ChecksGoInOrderAndRaiseAtMostOneFlag := by
  refine ⟨fun s v => hostAccess_write_cmd v, fun s t acc => hostAccess_flagsRaised_le, fun s t off v hoff h => ?_,
    fun s t addr v h => ?_, fun s t h => ?_⟩
  · obtain ⟨n, rfl⟩ := hostAccess_write_mlen_next hoff h
    exact unlessBusy_flags rfl rfl rfl
  · rw [hostAccess_write_byte_next h]
    exact unlessBusy_flags rfl rfl rfl
  · obtain ⟨-, -, -, hflags⟩ := engineTurn_next_frame h
    exact hflags

end Sys2Proof.Machine

/-! PROOFS of the statements about reset (spec/70_reset_and_hazards.md): what a reset leaves, from any state. -/

namespace Sys2Proof.Machine

/-- A reset leaves a legal state whatever it started from (70_reset_and_hazards.md R310, assumption log 21). -/
theorem legal_hardwareReset (s : State) : Legal (hardwareReset s) :=
  legal_of_idle_of_msg_nil ((hardwareReset_phase s).trans reset_phase) ((hardwareReset_msg s).trans reset_msg)

/-- A reset leaves no message byte at any address (10_state.md R49). -/
theorem read_msg_hardwareReset (s : State) (a : Nat) : Memory.read (hardwareReset s).msg a = none := by
  rw [hardwareReset_msg, reset_msg, read_nil]

/-- Settles O16: the step is `hardwareReset` over the turns that remain, and each clause is one of its field lemmas with the value
`State.reset` holds there. -/
theorem resetInAnyStateIsOneStep : Obligations.ResetInAnyStateIsOneStep := by
  intro s ts hts
  exact ⟨_, step_reset hts,
    (hardwareReset_phase _).trans reset_phase, (hardwareReset_done _).trans reset_done,
    (hardwareReset_elen _).trans reset_elen, (hardwareReset_ebusy _).trans reset_ebusy,
    (hardwareReset_ecmd _).trans reset_ecmd, (hardwareReset_mlen _).trans reset_mlen,
    read_msg_hardwareReset _, hardwareReset_cfg _, hardwareReset_turns _, legal_hardwareReset _⟩

end Sys2Proof.Machine
